-- ==== Sys2Proof/Word.lean ====
section
/-! DEFINITION. The widths the spec gives: a register and an address of 64 bits (10_state.md R6, R23, R24), an
instruction word of 32 (30_encoding.md R36), a byte, and the number `n` of a TRCSEQEVR<n> (00_scope.md R1). -/

namespace Sys2Proof

/-- A 64-bit register or byte address. -/
abbrev Word := BitVec 64

/-- One A64 instruction word. -/
abbrev InstrWord := BitVec 32

/-- The smallest unit of memory. -/
abbrev Byte := BitVec 8

/-- The `n` of TRCSEQEVR<n>, "n = 0 - 2" (00_scope.md R1). -/
abbrev RegIndex := Fin 3

end Sys2Proof
end

