-- ==== Sys2Proof/Config.lean ====
section
/-! DEFINITION. The parameters of 00_scope.md R4 as plain data, and the opaque constants that answer the spec's `draw`. The
machine's state carries one `Config` that no step writes, so a statement about every state is a statement about every
implementation (log 3). -/

namespace Sys2Proof

/-- `RES0_MODE` (10_state.md R19): what a read returns in a RES0 position. -/
inductive Res0Mode where
  | any      -- a draw fixed at the last write or reset
  | razWi    -- zero
  | storage  -- the bit last written
  deriving DecidableEq, Repr

/-- `SEQ_SIMUL` (41_sequencer_transitions.md R52): a forward and a backward event at one instant. -/
inductive SeqSimul where
  | any
  | stay
  | forwardWins
  | backwardWins
  deriving DecidableEq, Repr

/-- `SEQ_OTHER_MOVERS` (41_sequencer_transitions.md R53). -/
inductive OtherMovers where
  | free
  | none
  deriving DecidableEq, Repr

/-- `EXTERNAL_AGENT` (20_memory.md R28, 92_eei_decisions.md D13). -/
inductive ExternalAgent where
  | absent
  | free
  deriving DecidableEq, Repr

/-- DESIGN CHOICE (log 9): which of the two readings of 40_sysreg_access.md R43 a write takes while the trace unit is not Idle.
(A write of a 1 to a RES0 position is refused under both, 10_state.md R15, R19.) -/
inductive OpenWrite where
  | refuse   -- the spec's own refusal
  | run      -- "a model that prefers to continue": the write happens with draws in the open places
  deriving DecidableEq, Repr

/-- The three outcomes of `Simul` (41_sequencer_transitions.md R52). -/
inductive SeqChoice where
  | stay
  | forward
  | backward
  deriving DecidableEq, Repr, Inhabited

/-- The parameters of 00_scope.md R4, fixed for one implementation. -/
structure Config where
  /-- `HAVE_FEAT_ETE` -/
  haveFeatEte : Bool
  /-- `TRCIDR5.NUMSEQSTATE`; only "is it 0b000" is read -/
  numSeqState : BitVec 3
  /-- `HaveEL(EL2)` -/
  haveEl2 : Bool
  /-- `HaveEL(EL3)` -/
  haveEl3 : Bool
  /-- DEDUCED (log 19): the registers of the fine-grained traps exist (92_eei_decisions.md D23) -/
  haveFgt : Bool
  /-- `IMPDEF_EL3_TRAP_PRIORITY_SDD` -/
  sddPriority : Bool
  /-- `ImplementedSelector(i)` is bit `i` -/
  implementedSelectors : BitVec 32
  /-- `ImplementedPair(p)` is bit `p` -/
  implementedPairs : BitVec 16
  /-- `RES0_MODE` -/
  res0Mode : Res0Mode
  /-- `PAUSED_HOLDS` -/
  pausedHolds : Bool
  /-- `SEQ_SIMUL` -/
  seqSimul : SeqSimul
  /-- `SEQ_OTHER_MOVERS` -/
  otherMovers : OtherMovers
  /-- `SEQ_IDLE_MOVES` -/
  seqIdleMoves : Bool
  /-- `EXT_BASE` -/
  extBase : Word
  /-- `EXT_OFFSET(n)` -/
  extOffset : Vector Word 3
  /-- `EXT_BIG_ENDIAN` -/
  extBigEndian : Bool
  /-- `EXTERNAL_AGENT` -/
  externalAgent : ExternalAgent
  /-- the model's own (log 9) -/
  openWrite : OpenWrite
  deriving DecidableEq, Repr

/-- `PRESENT` (00_scope.md R2). -/
def Config.present (c : Config) : Bool :=
  c.haveFeatEte && (c.numSeqState != 0#3)

/-- The draws of the spec (00_scope.md section 5, `draw(T)`): free values, chosen by no law. Each is an opaque function of
the number of the draw (log 7). A 64-bit draw supplies the draws of its bits. -/
opaque Config.freeWord : Nat → Word

/-- `draw(Bool)` of an UNPREDICTABLE event (41_sequencer_transitions.md R49). -/
opaque Config.freeBit : Nat → Bool

/-- `draw(0..3)` of the Sequencer state (R53, R64; R43 for a write that runs while not Idle). -/
opaque Config.freeSeqState : Nat → Fin 4

/-- The draw of `Simul` under `SEQ_SIMUL = ANY` (R52). -/
opaque Config.freeChoice : Nat → SeqChoice

/-- Which of the values that may govern does so at an evaluation (20_memory.md R32). -/
opaque Config.freeIndex : Nat → Nat

/-- The pc after an instruction at the top of the address space, which the spec does not state (10_state.md R24, log 14). -/
opaque Config.freePc : Nat → Word

end Sys2Proof
end

