-- ==== Sys2Proof/Syntax.lean ====
section
/-! DEFINITION. The instructions: one constructor per row of spec/opcode_table.json (30_encoding.md R34 to R37). The operand
`rt` is the number `t` of `<Xt>`; that it lies in 0..31 is Sys2Proof.WellFormed. -/

namespace Sys2Proof

/-- The six rows of the opcode table: 40_sysreg_access.md R41 (`MRS`) and R42 (`MSR`), each for n = 0, 1, 2. -/
inductive Instr where
  /-- `MRS <Xt>, TRCSEQEVR0` -/
  | mrsTrcseqevr0 (rt : Nat)
  /-- `MRS <Xt>, TRCSEQEVR1` -/
  | mrsTrcseqevr1 (rt : Nat)
  /-- `MRS <Xt>, TRCSEQEVR2` -/
  | mrsTrcseqevr2 (rt : Nat)
  /-- `MSR TRCSEQEVR0, <Xt>` -/
  | msrTrcseqevr0 (rt : Nat)
  /-- `MSR TRCSEQEVR1, <Xt>` -/
  | msrTrcseqevr1 (rt : Nat)
  /-- `MSR TRCSEQEVR2, <Xt>` -/
  | msrTrcseqevr2 (rt : Nat)
  deriving DecidableEq, Repr

/-- The direction of an access (40_sysreg_access.md R40): `READ` for `MRS`, `WRITE` for `MSR`. -/
inductive Dir where
  | read
  | write
  deriving DecidableEq, Repr

/-- Which direction an instruction accesses its register in. -/
def Instr.dir : Instr → Dir
  | .mrsTrcseqevr0 _ => .read
  | .mrsTrcseqevr1 _ => .read
  | .mrsTrcseqevr2 _ => .read
  | .msrTrcseqevr0 _ => .write
  | .msrTrcseqevr1 _ => .write
  | .msrTrcseqevr2 _ => .write

/-- The register TRCSEQEVR<n> an instruction names. -/
def Instr.reg : Instr → RegIndex
  | .mrsTrcseqevr0 _ => 0
  | .mrsTrcseqevr1 _ => 1
  | .mrsTrcseqevr2 _ => 2
  | .msrTrcseqevr0 _ => 0
  | .msrTrcseqevr1 _ => 1
  | .msrTrcseqevr2 _ => 2

/-- The general register number `t` of an instruction. -/
def Instr.rt : Instr → Nat
  | .mrsTrcseqevr0 t => t
  | .mrsTrcseqevr1 t => t
  | .mrsTrcseqevr2 t => t
  | .msrTrcseqevr0 t => t
  | .msrTrcseqevr1 t => t
  | .msrTrcseqevr2 t => t

end Sys2Proof
end

