-- ==== Sys2Proof/WellFormed.lean ====
section
/-! DEFINITION. When an instruction is one that a word can encode: `t` = `UInt(Rt)` lies in 0..31 (30_encoding.md R37). It is
the only check, since `n` is part of the constructor. -/

namespace Sys2Proof

/-- `t` in 0..31. -/
abbrev Instr.WellFormed (i : Instr) : Prop := i.rt < 32

end Sys2Proof
end

