-- ==== Sys2Proof/Decode.lean ====
section
/-! DEFINITION. The decoder, total on any bytes and rejecting by name, and after it the encoder: 30_encoding.md R34 to R38.
PRESUMED (log 17): the places of the fields in the word and the little-endian order of its bytes are the family's (R36, R29,
93_implementation_defined.md G6, G12). Last, the assembler forms of R39 (log 32). -/

namespace Sys2Proof

/-- Why bytes are not an instruction in scope (30_encoding.md R38, 92_eei_decisions.md D25). -/
inductive DecodeError where
  /-- fewer than the four bytes of an instruction word -/
  | short
  /-- the tuple with `CRm` = 0b0011, which is no encoding of TRCSEQEVR<n> -/
  | crm3
  /-- an `MRS` or `MSR` of any other System register tuple -/
  | otherRegister
  /-- any other instruction -/
  | otherInstruction
  deriving DecidableEq, Repr

/-- The fields of the "System register move" format (30_encoding.md R36). -/
structure SysMove where
  /-- bits [31:22] -/
  fixed : BitVec 10
  /-- bit [21] -/
  l : BitVec 1
  /-- bits [20:19] -/
  op0 : BitVec 2
  /-- bits [18:16] -/
  op1 : BitVec 3
  /-- bits [15:12] -/
  crn : BitVec 4
  /-- bits [11:8] -/
  crm : BitVec 4
  /-- bits [7:5] -/
  op2 : BitVec 3
  /-- bits [4:0] -/
  rt : BitVec 5
  deriving DecidableEq, Repr

/-- The fields of a word. -/
def fieldsOfWord (w : InstrWord) : SysMove where
  fixed := w.extractLsb' 22 10
  l := w.extractLsb' 21 1
  op0 := w.extractLsb' 19 2
  op1 := w.extractLsb' 16 3
  crn := w.extractLsb' 12 4
  crm := w.extractLsb' 8 4
  op2 := w.extractLsb' 5 3
  rt := w.extractLsb' 0 5

/-- The word of its fields. -/
def wordOfFields (f : SysMove) : InstrWord :=
  f.fixed ++ f.l ++ f.op0 ++ f.op1 ++ f.crn ++ f.crm ++ f.op2 ++ f.rt

/-- The answer of the decoder on one word. -/
inductive DecodedWord where
  | instr (i : Instr)
  | rejected (why : DecodeError)
  deriving DecidableEq, Repr

/-- The answer of the decoder on bytes: an instruction with the bytes after it, or a rejection by name. -/
inductive Decoded where
  | instr (i : Instr) (rest : List Byte)
  | rejected (why : DecodeError)
  deriving DecidableEq, Repr

/-- `L` = 1 is `MRS`, `L` = 0 is `MSR` (R36); `CRm` = 0b00:n[1:0] gives `n` (R35). -/
def decodeTuple (l : BitVec 1) (crm : BitVec 4) (t : Nat) : DecodedWord :=
  if crm = 0b0000#4 then
    .instr (if l = 1#1 then .mrsTrcseqevr0 t else .msrTrcseqevr0 t)
  else if crm = 0b0001#4 then
    .instr (if l = 1#1 then .mrsTrcseqevr1 t else .msrTrcseqevr1 t)
  else if crm = 0b0010#4 then
    .instr (if l = 1#1 then .mrsTrcseqevr2 t else .msrTrcseqevr2 t)
  else if crm = 0b0011#4 then
    .rejected .crm3
  else
    .rejected .otherRegister

/-- One instruction word (R34 to R38). A System register move has bits [31:22] = 1101010100 and bit [20] = 1 (R36). -/
def decodeWord (w : InstrWord) : DecodedWord :=
  let f := fieldsOfWord w
  if f.fixed = 0b1101010100#10 ∧ f.op0.getLsbD 1 = true then
    if f.op0 = 0b10#2 ∧ f.op1 = 0b001#3 ∧ f.crn = 0b0000#4 ∧ f.op2 = 0b100#3 then
      decodeTuple f.l f.crm f.rt.toNat
    else
      .rejected .otherRegister
  else
    .rejected .otherInstruction

/-- Little-endian: the byte at the lowest address holds bits [7:0] (20_memory.md R29). -/
def wordOfBytes (b0 b1 b2 b3 : Byte) : InstrWord :=
  b3 ++ b2 ++ b1 ++ b0

/-- The four bytes of a word at increasing addresses (20_memory.md R29). -/
def bytesOfWord (w : InstrWord) : List Byte :=
  [w.extractLsb' 0 8, w.extractLsb' 8 8, w.extractLsb' 16 8, w.extractLsb' 24 8]

/-- The instruction at the head of a list of bytes, and the bytes after it. -/
def decode : List Byte → Decoded
  | b0 :: b1 :: b2 :: b3 :: rest =>
    match decodeWord (wordOfBytes b0 b1 b2 b3) with
    | .instr i => .instr i rest
    | .rejected why => .rejected why
  | _ => .rejected .short

/-- `L` of a direction (R36). -/
def lOfDir : Dir → BitVec 1
  | .read => 1#1
  | .write => 0#1

/-- `CRm` = 0b00:n[1:0] (R34, R35). -/
def crmOfReg : RegIndex → BitVec 4
  | 0 => 0b0000#4
  | 1 => 0b0001#4
  | 2 => 0b0010#4

/-- The fields that encode an instruction (R34, R36). -/
def encodeFields (i : Instr) : SysMove where
  fixed := 0b1101010100#10
  l := lOfDir i.dir
  op0 := 0b10#2
  op1 := 0b001#3
  crn := 0b0000#4
  crm := crmOfReg i.reg
  op2 := 0b100#3
  rt := BitVec.ofNat 5 i.rt

/-- The word of a well-formed instruction. -/
def encodeWord (i : Instr) : InstrWord :=
  wordOfFields (encodeFields i)

/-- Its bytes, as the hardware stores them. -/
def encode (i : Instr) : List Byte :=
  bytesOfWord (encodeWord i)

/-- The instruction an instruction word of the opcode table is read as: `w` holds `nbits` bits, every bit above them is 0,
and the word lies in memory little-endian. -/
def decodeTableWord (nbits w : Nat) : Option Instr :=
  match decode (bytesOfWord (BitVec.ofNat 32 (w % 2 ^ nbits))) with
  | .instr i _ => some i
  | .rejected _ => none

/-- `<Xt>`: `X0` to `X30` or `XZR` (R39). -/
def asmReg (t : Nat) : String :=
  if t = 31 then "XZR" else "X" ++ Nat.repr t

/-- The assembler forms `MRS <Xt>, TRCSEQEVR<n>` and `MSR TRCSEQEVR<n>, <Xt>` (R39). -/
def asm (i : Instr) : String :=
  match i.dir with
  | .read => "MRS " ++ asmReg i.rt ++ ", TRCSEQEVR" ++ Nat.repr i.reg.val
  | .write => "MSR TRCSEQEVR" ++ Nat.repr i.reg.val ++ ", " ++ asmReg i.rt

/-- The same with the generic register name `S<op0>_<op1>_C<CRn>_C<CRm>_<op2>` (R39). -/
def asmGeneric (i : Instr) : String :=
  let name := "S2_1_C0_C" ++ Nat.repr i.reg.val ++ "_4"
  match i.dir with
  | .read => "MRS " ++ asmReg i.rt ++ ", " ++ name
  | .write => "MSR " ++ name ++ ", " ++ asmReg i.rt

end Sys2Proof
end

