-- ==== Sys2Proof/Machine/State.lean ====
section
/-! DEFINITION. What the machine holds: 00_scope.md section 7 item 2 and R4, 10_state.md R6, R19, R21 to R25, 20_memory.md R32
and R33; the reasons a step can stop; and the state after reset (log 3, log 4, log 5: the spec gives no defined value). -/

namespace Sys2Proof.Machine

/-- An Exception level, a value of `PSTATE.EL` (60_exceptions.md R58). -/
inductive EL where
  | el0
  | el1
  | el2
  | el3
  deriving DecidableEq, Repr

/-- The two fields of `TRCRSCTLR<a>` that 40_sysreg_access.md R44 reads. -/
structure Rsctlr where
  /-- `TRCRSCTLR<a>.GROUP` -/
  group : BitVec 4
  /-- `TRCRSCTLR<a>.SEQUENCER` -/
  sequencer : BitVec 4
  deriving DecidableEq, Repr

/-- The inputs of 00_scope.md R4 and 10_state.md R22, R25, but for `X[t]`, which is the register file `State.x`: the environment
sets them, no other step does. A bit whose register
the implementation lacks is taken as 0 where it is read, by `Inputs.effective` (log 19). -/
structure Inputs where
  /-- `PSTATE.EL` -/
  el : EL
  /-- `Halted()` -/
  halted : Bool
  /-- `EDSCR.SDD` -/
  sdd : Bool
  /-- `CPTR_EL3.TTA` -/
  cptrEl3Tta : Bool
  /-- `CPTR_EL2.TTA` -/
  cptrEl2Tta : Bool
  /-- `CPACR_EL1.TTA` -/
  cpacrEl1Tta : Bool
  /-- `EL2Enabled()` -/
  el2Enabled : Bool
  /-- `SCR_EL3.FGTEn` -/
  fgten : Bool
  /-- `HDFGRTR_EL2.TRC` -/
  hdfgrtrTrc : Bool
  /-- `HDFGWTR_EL2.TRC` -/
  hdfgwtrTrc : Bool
  /-- `TraceUnitIdle` -/
  idle : Bool
  /-- `ResourcesPaused` -/
  paused : Bool
  /-- `TRCRSCTLR<a>`, `a` the position in the list -/
  trcrsctlr : List Rsctlr
  deriving DecidableEq, Repr

/-- The answers of the oracle at one evaluation instant (41_sequencer_transitions.md R46). -/
structure Answers where
  /-- `SelectorOutput(i)` is bit `i` -/
  selectors : BitVec 32
  /-- `PairOutput(p)` is bit `p` -/
  pairs : BitVec 16
  deriving DecidableEq, Repr

/-- One step of one agent (00_scope.md section 7 item 1). -/
inductive Move where
  /-- the PE runs the instruction at `pc` (R41, R42) -/
  | pe
  /-- the Sequencer evaluates its events once (R52) -/
  | sequencer (a : Answers)
  /-- the external debugger reads `size` bytes at `addr` (R28, R30) -/
  | extRead (addr : Word) (size : Nat)
  /-- the external debugger writes the bytes at `addr` (R28, R30) -/
  | extWrite (addr : Word) (bytes : List Byte)
  /-- a Trace unit reset (R64) -/
  | traceUnitReset
  /-- any other reset or power event (R65) -/
  | otherReset
  /-- another mover of the Sequencer (R53) -/
  | seqHavoc
  /-- the environment changes the inputs (R4) -/
  | setInputs (i : Inputs)
  /-- the environment changes the input `X[t]` (R4, log 31) -/
  | setX (t : Nat) (v : Word)
  deriving DecidableEq, Repr

/-- One register TRCSEQEVR<n> with what the spec attaches to it. -/
structure Evr where
  /-- `SEQEVR[n]` (10_state.md R6, R7) -/
  value : Word
  /-- what its RES0 positions read as under `RES0_MODE = ANY`, drawn at the last write or reset (R19 point 3) -/
  res0 : Word
  /-- the ghost `Programmed[n]` (R25) -/
  programmed : Bool
  /-- values written before, youngest first, any of which may still govern the Sequencer (20_memory.md R32, log 21) -/
  stale : List Word
  deriving DecidableEq, Repr

/-- Which test a write fails: those of 40_sysreg_access.md R42 in their order. -/
inductive OpenReason where
  /-- "write while not Idle" (R43) -/
  | notIdle
  /-- "RES0 bit written as 1" (10_state.md R19 point 2) -/
  | res0
  /-- "B_SEL[4] is RES0 when B_TYPE = 1" (10_state.md R15) -/
  | bSel4
  /-- "F_SEL[4] is RES0 when F_TYPE = 1" (10_state.md R15) -/
  | fSel4
  deriving DecidableEq, Repr

/-- The machine stops with a fault. The first two are the terminal outcomes of 60_exceptions.md R62; a step that answers one
leaves the state it was given unchanged. -/
inductive Fault where
  /-- `Undefined` (60_exceptions.md R54). Raised by an `MRS` or `MSR` whose access check says so. SAFE: nothing can be claimed
  of what follows. -/
  | undefined
  /-- `Trap(target_el, 0x18)` (60_exceptions.md R55): the target level and the second argument of `SystemAccessTrap`. Raised by an
  `MRS` or `MSR` whose access check says so. SAFE, as above. -/
  | trap (target : EL) (ec : Nat)
  /-- DESIGN CHOICE (log 2): the PE fetches a byte no program text lists. Raised by the fetch. SAFE. -/
  | fetchUnlisted
  /-- DESIGN CHOICE (log 15): the PE fetches at a pc that is no multiple of 4. Raised by the fetch. SAFE. -/
  | fetchMisaligned
  deriving DecidableEq, Repr

/-- The machine has no meaning for what it is asked to do. -/
inductive Refusal where
  /-- An instruction this model has not reached, by its mnemonic. Raised by exec's refused arms alone. SAFE. -/
  | notModelled (mnemonic : String)
  /-- `refuse("not in scope")` (30_encoding.md R38). Raised by the decoding of a fetched word. SAFE. -/
  | notInScope (why : DecodeError)
  /-- A write of a 1 to a RES0 position (10_state.md R15, R19 point 2), or one while not Idle when `openWrite` is `refuse`
  (40_sysreg_access.md R42, R43; 20_memory.md R28). Raised by `MSR` and by an external write. SAFE. -/
  | openWrite (why : OpenReason)
  /-- An external access of another width than 32 bits (20_memory.md R30). Raised by the external debugger's steps. SAFE. -/
  | extWidth
  /-- An external access that is not 4-byte aligned (20_memory.md R30). Raised by the external debugger's steps. SAFE. -/
  | extMisaligned
  /-- An external access at an address that is no `EXT_BASE + EXT_OFFSET(n)` (20_memory.md R28; the platform's other devices
  are in no source). Raised by the external debugger's steps. SAFE. -/
  | extUnmapped
  /-- An external access to a register that is not present (00_scope.md R2: it does "not exist as state"). Raised by the
  external debugger's steps. SAFE. -/
  | extAbsent
  deriving DecidableEq, Repr

/-- The machine. -/
structure State where
  /-- the parameters of R4, which no step writes (log 3) -/
  cfg : Config
  /-- the inputs of R4 -/
  inp : Inputs
  /-- `X0` to `X30` (10_state.md R23); register 31 has no storage -/
  x : Vector Word 31
  /-- the program counter (10_state.md R24) -/
  pc : Word
  /-- TRCSEQEVR0 to TRCSEQEVR2 (10_state.md R6) -/
  evr : Vector Evr 3
  /-- `SeqState` (10_state.md R21) -/
  seqState : Fin 4
  /-- the program text (20_memory.md R33): addresses strictly rising; an address not listed holds no byte (log 2) -/
  mem : List Host.Cell
  /-- the model's own: how many draws have been taken (log 7) -/
  draws : Nat
  /-- the model's own: the bytes the last external read returned, at increasing addresses (log 24) -/
  extData : List Byte
  /-- the model's own: the steps the agents take next, in this order; none left, the PE goes on (log 6) -/
  schedule : List Move
  deriving DecidableEq, Repr

/-- What one step answers. -/
abbrev Result := Host.Outcome State Fault Refusal

/-- The configuration of the state after reset: the spec's default of each parameter that has one, else DESIGN CHOICE
(log 3). -/
def resetConfig : Config where
  haveFeatEte := true
  numSeqState := 0b100#3
  haveEl2 := true
  haveEl3 := true
  haveFgt := true
  sddPriority := false
  implementedSelectors := 0
  implementedPairs := 0
  res0Mode := .any
  pausedHolds := false
  seqSimul := .any
  otherMovers := .free
  seqIdleMoves := true
  extBase := 0
  extOffset := #v[0x100, 0x104, 0x108]
  extBigEndian := false
  externalAgent := .free
  openWrite := .run

/-- The inputs after reset (log 4). -/
def resetInputs : Inputs where
  el := .el3
  halted := false
  sdd := false
  cptrEl3Tta := false
  cptrEl2Tta := false
  cpacrEl1Tta := false
  el2Enabled := false
  fgten := false
  hdfgrtrTrc := false
  hdfgwtrTrc := false
  idle := true
  paused := false
  trcrsctlr := []

/-- A register after reset (log 5); `Programmed` is false (70_reset_and_hazards.md R64). -/
def resetEvr : Evr where
  value := 0
  res0 := 0
  programmed := false
  stale := []

/-- The machine right after reset (log 3, log 4, log 5). -/
def State.reset : State where
  cfg := resetConfig
  inp := resetInputs
  x := Vector.replicate 31 0
  pc := 0
  evr := Vector.replicate 3 resetEvr
  seqState := 0
  mem := []
  draws := 0
  extData := []
  schedule := []

end Sys2Proof.Machine
end

