-- ==== Sys2Proof/Machine/Access.lean ====
section
/-! DEFINITION. `AccessCheck(dir)`, the access check `MRS` and `MSR` share: 40_sysreg_access.md R40, with the order of
60_exceptions.md R56. -/

namespace Sys2Proof.Machine

/-- What the access check returns (R40). -/
inductive Access where
  | allow
  | undefined
  | trap (target : EL)
  deriving DecidableEq, Repr

/-- The inputs as the access check reads them: a bit whose holding register the implementation lacks is 0 (10_state.md R22,
92_eei_decisions.md D23, log 19). -/
def Inputs.effective (c : Config) (i : Inputs) : Inputs :=
  { i with
    cptrEl3Tta := c.haveEl3 && i.cptrEl3Tta
    cptrEl2Tta := c.haveEl2 && i.cptrEl2Tta
    el2Enabled := c.haveEl2 && i.el2Enabled
    fgten := c.haveEl3 && c.haveFgt && i.fgten
    hdfgrtrTrc := c.haveEl2 && c.haveFgt && i.hdfgrtrTrc
    hdfgwtrTrc := c.haveEl2 && c.haveFgt && i.hdfgwtrTrc }

/-- `FGT(dir)` (R40): `HDFGRTR_EL2.TRC` for reads, `HDFGWTR_EL2.TRC` for writes. -/
def fineGrainedTrap (i : Inputs) : Dir → Bool
  | .read => i.hdfgrtrTrc
  | .write => i.hdfgwtrTrc

/-- The first test of the EL1 and EL2 arms (R40; cause U3 of R54). -/
def undefinedFirst (c : Config) (i : Inputs) : Bool :=
  i.halted && c.haveEl3 && i.sdd && c.sddPriority && i.cptrEl3Tta

/-- The `CPTR_EL3.TTA` arm of EL1 and EL2 and what is left after it (R40; causes T4, T6 and U4). -/
def el3Arm (c : Config) (i : Inputs) : Access :=
  if c.haveEl3 && i.cptrEl3Tta then
    if i.halted && i.sdd then .undefined else .trap .el3
  else .allow

/-- The EL1 arm of R40. -/
def accessCheckEl1 (c : Config) (i : Inputs) (d : Dir) : Access :=
  if undefinedFirst c i then .undefined
  else if i.cpacrEl1Tta then .trap .el1
  else if i.el2Enabled && i.cptrEl2Tta then .trap .el2
  else if i.el2Enabled && (!c.haveEl3 || i.fgten) && fineGrainedTrap i d then .trap .el2
  else el3Arm c i

/-- The EL2 arm of R40. -/
def accessCheckEl2 (c : Config) (i : Inputs) : Access :=
  if undefinedFirst c i then .undefined
  else if i.cptrEl2Tta then .trap .el2
  else el3Arm c i

/-- The EL3 arm of R40. -/
def accessCheckEl3 (i : Inputs) : Access :=
  if i.cptrEl3Tta then .trap .el3 else .allow

/-- `AccessCheck(dir)` (R40). DEDUCED (log 27): the presence test comes first. -/
def accessCheck (c : Config) (i : Inputs) (d : Dir) : Access :=
  if !c.present then .undefined
  else match i.el with
    | .el0 => .undefined
    | .el1 => accessCheckEl1 c i d
    | .el2 => accessCheckEl2 c i
    | .el3 => accessCheckEl3 i

/-- The access check in a state. -/
def State.access (s : State) (d : Dir) : Access :=
  accessCheck s.cfg (s.inp.effective s.cfg) d

end Sys2Proof.Machine
end

