-- ==== Sys2Proof/Machine/Fields.lean ====
section
/-! DEFINITION. The bit-fields of a 64-bit value of TRCSEQEVR<n>: 10_state.md R7 to R15, R19, and the names of 00_scope.md R5.
(The hardware has no condition flags, 10_state.md section 6.) -/

namespace Sys2Proof.Machine

/-- `B_TYPE`, bit [15] (R9). -/
def bType (v : Word) : Bool := v.getLsbD 15

/-- `B_SEL`, bits [12:8] (R11). -/
def bSel (v : Word) : BitVec 5 := v.extractLsb' 8 5

/-- `F_TYPE`, bit [7] (R12). -/
def fType (v : Word) : Bool := v.getLsbD 7

/-- `F_SEL`, bits [4:0] (R14). -/
def fSel (v : Word) : BitVec 5 := v.extractLsb' 0 5

/-- `pack(bt, bs, ft, fs)` (R7): the 16 bits `bt : 0b00 : bs : ft : 0b00 : fs`, zero-extended. -/
def pack (bt : Bool) (bs : BitVec 5) (ft : Bool) (fs : BitVec 5) : Word :=
  (BitVec.ofBool bt ++ 0b00#2 ++ bs ++ BitVec.ofBool ft ++ 0b00#2 ++ fs).setWidth 64

/-- The mask of the non-reserved bits (R7). -/
def fieldMask : Word := 0x0000000000009F9F#64

/-- The mask of the always-reserved bits [63:16], [14:13], [6:5] (R7, R8, R10, R13). -/
def reservedMask : Word := 0xFFFFFFFFFFFF6060#64

/-- Register bit [12] is RES0: `B_TYPE` = 1 (R15). -/
def bSel4Reserved (v : Word) : Bool := bType v

/-- Register bit [4] is RES0: `F_TYPE` = 1 (R15). -/
def fSel4Reserved (v : Word) : Bool := fType v

/-- The index of a single Resource Selector, `UInt(SEL[4:0])`, 0..31 (R11, R14). -/
def selectorIndex (sel : BitVec 5) : Nat := sel.toNat

/-- The index of a Resource Selector pair, `UInt(SEL[3:0])`, 0..15; `SEL[4]` takes no part (R11, R14, R15). -/
def pairIndex (sel : BitVec 5) : Nat := (sel.extractLsb' 0 4).toNat

end Sys2Proof.Machine
end

