-- ==== Sys2Proof/Machine/Operands.lean ====
section
/-! DEFINITION. The one operand form, `<Xt>`: 10_state.md R23, 30_encoding.md R37. PRESUMED (log 16): register 31 is `XZR`, which
reads as 0 and discards writes (92_eei_decisions.md D15). -/

namespace Sys2Proof.Machine

/-- `x[t]`. The file holds `X0` to `X30`; register 31 reads as 0. -/
def State.readX (s : State) (t : Nat) : Word :=
  if h : t < 31 then s.x[t] else 0

/-- `x[t] <- v`. A write of register 31 is discarded. -/
def State.writeX (s : State) (t : Nat) (v : Word) : State :=
  if h : t < 31 then { s with x := s.x.set t v } else s

end Sys2Proof.Machine
end

