-- ==== Sys2Proof/Machine/Ops.lean ====
section
/-! DEFINITION. The named operations over memory, the registers TRCSEQEVR<n> and the program counter, and the one operation by
which an access ends in an exceptional outcome: 10_state.md R19, R24, 20_memory.md R29, R33, 40_sysreg_access.md R42, R43,
60_exceptions.md R54, R55, R62. -/

namespace Sys2Proof.Machine

/-- The byte listed at an address; none where nothing is listed (log 2). -/
def Memory.read : List Host.Cell → Nat → Option Byte
  | [], _ => none
  | (b, v) :: rest, a => if b = a then some v else Memory.read rest a

/-- List a byte at an address, keeping the addresses rising. -/
def Memory.write : List Host.Cell → Nat → Byte → List Host.Cell
  | [], a, v => [(a, v)]
  | (b, u) :: rest, a, v =>
    if a < b then (a, v) :: (b, u) :: rest
    else if a = b then (a, v) :: rest
    else (b, u) :: Memory.write rest a v

/-- The canonical form: addresses strictly rising, all within the 64-bit address space. (An unlisted address holds no byte, so
no entry equals what one reads as.) -/
abbrev Memory.wf (m : List Host.Cell) : Prop :=
  m.Pairwise (fun c d => c.1 < d.1) ∧ ∀ c ∈ m, c.1 < 2 ^ 64

/-- List bytes at increasing addresses from `a`. -/
def Memory.writeBytes (m : List Host.Cell) (a : Nat) : List Byte → List Host.Cell
  | [] => m
  | b :: rest => Memory.writeBytes (Memory.write m a b) (a + 1) rest

/-- The four bytes of the word at an address, when all four are listed. -/
def Memory.readWordBytes (m : List Host.Cell) (a : Nat) : Option (List Byte) :=
  match Memory.read m a, Memory.read m (a + 1), Memory.read m (a + 2), Memory.read m (a + 3) with
  | some b0, some b1, some b2, some b3 => some [b0, b1, b2, b3]
  | _, _, _, _ => none

/-- The fetch of the 32-bit instruction word at `pc` (20_memory.md R27, R29): its bytes, or the fault (log 2, log 15). -/
def State.fetch (s : State) : Except Fault (List Byte) :=
  if s.pc.toNat % 4 = 0 then
    match Memory.readWordBytes s.mem s.pc.toNat with
    | some bs => .ok bs
    | none => .error .fetchUnlisted
  else .error .fetchMisaligned

/-- `pc <- pc + 4` (10_state.md R24). At the top of the address space the spec does not state the sum: a free value (log 14). -/
def State.advancePc (s : State) : State :=
  if s.pc.toNat + 4 < 2 ^ 64 then { s with pc := s.pc + 4 }
  else { s with pc := Config.freePc s.draws, draws := s.draws + 1 }

/-- The constant of every `SystemAccessTrap(ELx, 0x18)` (40_sysreg_access.md R40). -/
def systemAccessTrapClass : Nat := 0x18

/-- How an access ends: allowed, it goes on to its effect; else the step ends in the terminal outcome `Undefined` or
`Trap(el, 0x18)` (60_exceptions.md R54, R55, R62), and no effect happens (R61). The spec describes no entry and no return
(log 13). -/
def byAccess (a : Access) (effect : Result) : Result :=
  match a with
  | .allow => effect
  | .undefined => .fault .undefined
  | .trap el => .fault (.trap el systemAccessTrapClass)

/-- The value a read of TRCSEQEVR<n> returns: the stored non-reserved bits, and in the RES0 positions what `RES0_MODE` says
(10_state.md R19 point 3, log 12). -/
def State.readReg (s : State) (n : RegIndex) : Word :=
  match s.cfg.res0Mode with
  | .razWi => s.evr[n].value &&& fieldMask
  | .storage => s.evr[n].value
  | .any => (s.evr[n].value &&& fieldMask) ||| (s.evr[n].res0 &&& reservedMask)

/-- The first of the tests for reserved bits that a value fails (10_state.md R15, R19 point 2; 40_sysreg_access.md R42): none for
a value that may be written. -/
def reservedReason (v : Word) : Option OpenReason :=
  if v &&& reservedMask ≠ 0 then some .res0
  else if bSel4Reserved v && v.getLsbD 12 then some .bSel4
  else if fSel4Reserved v && v.getLsbD 4 then some .fSel4
  else none

/-- The first of the tests of 40_sysreg_access.md R42 that a write of `v` fails: none for an admitted write. -/
def openReason (idle : Bool) (v : Word) : Option OpenReason :=
  if !idle then some .notIdle else reservedReason v

/-- How a write ends: one that fails a test is refused by its name, another goes on to its effect (R42). -/
def byTests (why : Option OpenReason) (effect : Result) : Result :=
  match why with
  | none => effect
  | some r => .refused (.openWrite r)

/-- A drawn register value, subject to `RES0_MODE` (10_state.md R18, R19, 70_reset_and_hazards.md R64). -/
def drawnValue (m : Res0Mode) (d : Word) : Word :=
  match m with
  | .razWi => d &&& fieldMask
  | .storage => d
  | .any => d

/-- Put a value into TRCSEQEVR<n>: its RES0 positions are drawn anew (R19 point 3) and the value it had joins those that may
still govern the Sequencer (20_memory.md R32). -/
def State.putReg (s : State) (n : RegIndex) (v : Word) (programmed : Bool) : State :=
  { s with
    evr := s.evr.set n
      { value := v
        res0 := Config.freeWord s.draws
        programmed := programmed
        stale := s.evr[n].value :: s.evr[n].stale }
    draws := s.draws + 2 }

/-- An admitted write: `SEQEVR[n] <- v`, `Programmed[n] <- true` (40_sysreg_access.md R42). -/
def State.admittedWrite (s : State) (n : RegIndex) (v : Word) : State :=
  s.putReg n v true

/-- A write while the trace unit is not Idle, under `openWrite` = `run`: the register takes any value and `SeqState` any state
(40_sysreg_access.md R43, log 11). `Programmed[n]` keeps its value: only an admitted write sets it (10_state.md R25). -/
def State.busyWrite (s : State) (n : RegIndex) : State :=
  { s.putReg n (drawnValue s.cfg.res0Mode (Config.freeWord (s.draws + 1))) s.evr[n].programmed with
    seqState := Config.freeSeqState s.draws }

/-- A write of TRCSEQEVR<n> by either view, after any access check: the tests and the write of 40_sysreg_access.md R42 (for the
external view 20_memory.md R28); or, while not Idle under `openWrite` = `run`, the continuation R43 allows, after the tests for
reserved bits (log 9, log 10). -/
def State.writeReg (s : State) (n : RegIndex) (v : Word) : Result :=
  if s.inp.idle = true ∨ s.cfg.openWrite = .refuse then
    byTests (openReason s.inp.idle v) (.next (s.admittedWrite n v))
  else
    byTests (reservedReason v) (.next (s.busyWrite n))

/-- Carry on from a next state; a fault or a refusal stays. -/
def andThen (r : Result) (f : State → State) : Result :=
  match r with
  | .next s => .next (f s)
  | .fault e => .fault e
  | .refused e => .refused e

end Sys2Proof.Machine
end

