-- ==== Sys2Proof/Machine/Mrs.lean ====
section
/-! DEFINITION. `MRS <Xt>, TRCSEQEVR<n>`: 40_sysreg_access.md R41. -/

namespace Sys2Proof.Machine

/-- The effect of an allowed `MRS` (R41): `x[t] <- SEQEVR[n]`, `pc <- pc + 4`. -/
def State.mrsEffect (s : State) (n : RegIndex) (t : Nat) : State :=
  (s.writeX t (s.readReg n)).advancePc

/-- `MRS <Xt>, TRCSEQEVR<n>` (R41). It has no Idle condition. -/
def mrs (n : RegIndex) (t : Nat) (s : State) : Result :=
  byAccess (s.access .read) (.next (s.mrsEffect n t))

/-- `MRS <Xt>, TRCSEQEVR0` (R41). -/
def execMrsTrcseqevr0 (t : Nat) (s : State) : Result := mrs 0 t s

/-- `MRS <Xt>, TRCSEQEVR1` (R41). -/
def execMrsTrcseqevr1 (t : Nat) (s : State) : Result := mrs 1 t s

/-- `MRS <Xt>, TRCSEQEVR2` (R41). -/
def execMrsTrcseqevr2 (t : Nat) (s : State) : Result := mrs 2 t s

end Sys2Proof.Machine
end

