-- ==== Sys2Proof/Machine/Msr.lean ====
section
/-! DEFINITION. `MSR TRCSEQEVR<n>, <Xt>`: 40_sysreg_access.md R42, R43. -/

namespace Sys2Proof.Machine

/-- `MSR TRCSEQEVR<n>, <Xt>` (R42): the access check, then the write of `x[t]`, then `pc <- pc + 4`. -/
def msr (n : RegIndex) (t : Nat) (s : State) : Result :=
  byAccess (s.access .write) (andThen (s.writeReg n (s.readX t)) State.advancePc)

/-- `MSR TRCSEQEVR0, <Xt>` (R42). -/
def execMsrTrcseqevr0 (t : Nat) (s : State) : Result := msr 0 t s

/-- `MSR TRCSEQEVR1, <Xt>` (R42). -/
def execMsrTrcseqevr1 (t : Nat) (s : State) : Result := msr 1 t s

/-- `MSR TRCSEQEVR2, <Xt>` (R42). -/
def execMsrTrcseqevr2 (t : Nat) (s : State) : Result := msr 2 t s

end Sys2Proof.Machine
end

