-- ==== Sys2Proof/Machine/Dispatch.lean ====
section
/-! DEFINITION. What each instruction of spec/opcode_table.json does: one arm per constructor, one meaning per arm. -/

namespace Sys2Proof.Machine

def exec (i : Instr) (s : State) : Host.Outcome State Fault Refusal :=
  match i with
  | .mrsTrcseqevr0 t => Sys2Proof.Machine.execMrsTrcseqevr0 t s
  | .mrsTrcseqevr1 t => Sys2Proof.Machine.execMrsTrcseqevr1 t s
  | .mrsTrcseqevr2 t => Sys2Proof.Machine.execMrsTrcseqevr2 t s
  | .msrTrcseqevr0 t => Sys2Proof.Machine.execMsrTrcseqevr0 t s
  | .msrTrcseqevr1 t => Sys2Proof.Machine.execMsrTrcseqevr1 t s
  | .msrTrcseqevr2 t => Sys2Proof.Machine.execMsrTrcseqevr2 t s

end Sys2Proof.Machine
end

