-- ==== Sys2Proof/Machine/Environment.lean ====
section
/-! DEFINITION. The environment's moves: 70_reset_and_hazards.md R64, R65, and changes of the inputs (00_scope.md R4 and
section 7 item 1; the input `X[t]` is changed by `State.writeX` of Operands.lean). -/

namespace Sys2Proof.Machine

/-- TRCSEQEVR<n> after a Trace unit reset (R64, 10_state.md R18, R19): the bits of one draw for the fields, of another for what
the RES0 positions read as under `RES0_MODE = ANY`. -/
def drawnEvr (m : Res0Mode) (k : Nat) : Evr where
  value := drawnValue m (Config.freeWord k)
  res0 := Config.freeWord (k + 1)
  programmed := false
  stale := []

/-- `TraceUnitReset()` (R64). With the registers absent there is nothing to reset (00_scope.md R2, log 25). -/
def State.traceUnitReset (s : State) : State :=
  if s.cfg.present then
    { s with
      evr := #v[drawnEvr s.cfg.res0Mode s.draws, drawnEvr s.cfg.res0Mode (s.draws + 2),
        drawnEvr s.cfg.res0Mode (s.draws + 4)]
      seqState := Config.freeSeqState s.draws
      draws := s.draws + 6 }
  else s

/-- Any other reset or power event (R65): "exactly as TraceUnitReset". -/
def State.otherReset (s : State) : State :=
  s.traceUnitReset

/-- An Exception level the implementation has: EL2 and EL3 are optional (60_exceptions.md R58). -/
def EL.implemented (c : Config) : EL → Bool
  | .el0 => true
  | .el1 => true
  | .el2 => c.haveEl2
  | .el3 => c.haveEl3

/-- On a departure from Idle the value a register holds is the one that governs (20_memory.md R32). -/
def Evr.settle (e : Evr) : Evr :=
  { e with stale := [] }

/-- A change of the inputs (00_scope.md section 7 item 1 (d)). To a level the implementation lacks there is none (log 19,
log 23). -/
def State.setInputs (s : State) (i : Inputs) : State :=
  if i.el.implemented s.cfg then
    if s.inp.idle && !i.idle then
      { s with inp := i, evr := #v[s.evr[0].settle, s.evr[1].settle, s.evr[2].settle] }
    else { s with inp := i }
  else s

end Sys2Proof.Machine
end

