-- ==== Sys2Proof/Machine/External.lean ====
section
/-! DEFINITION. The agent `ExternalDebugger` and the external view of the registers: 20_memory.md R26, R28 to R31. -/

namespace Sys2Proof.Machine

/-- The register whose external view stands at a byte address: `EXT_BASE + EXT_OFFSET(n)` (R28). -/
def extIndex (c : Config) (addr : Word) : Option RegIndex :=
  if addr = c.extBase + c.extOffset[0] then some 0
  else if addr = c.extBase + c.extOffset[1] then some 1
  else if addr = c.extBase + c.extOffset[2] then some 2
  else none

/-- The register an external access reaches, or why it reaches none (R30: 32 bits wide and 4-byte aligned; R2; R28). -/
def State.extTarget (s : State) (addr : Word) (size : Nat) : Except Refusal RegIndex :=
  if size ≠ 4 then .error .extWidth
  else if addr.toNat % 4 ≠ 0 then .error .extMisaligned
  else if !s.cfg.present then .error .extAbsent
  else
    match extIndex s.cfg addr with
    | some n => .ok n
    | none => .error .extUnmapped

/-- The bytes of a 32-bit external access at increasing addresses (R29: little-endian, unless `EXT_BIG_ENDIAN`). -/
def extBytesOfWord (bigEndian : Bool) (w : InstrWord) : List Byte :=
  if bigEndian then (bytesOfWord w).reverse else bytesOfWord w

/-- The 32 bits of the four bytes of an external access (R29). -/
def extWordOfBytes (bigEndian : Bool) (b0 b1 b2 b3 : Byte) : InstrWord :=
  if bigEndian then wordOfBytes b3 b2 b1 b0 else wordOfBytes b0 b1 b2 b3

/-- `ExtRead(n)` (R28): bits [31:0] of what a read of TRCSEQEVR<n> returns (R20, R31). -/
def State.extRead (s : State) (n : RegIndex) : InstrWord :=
  (s.readReg n).setWidth 32

/-- `ExtWrite(n, w)` (R28): the tests and the write of the System register view, of `zext_64(w)`. -/
def State.extWrite (s : State) (n : RegIndex) (w : InstrWord) : Result :=
  s.writeReg n (w.setWidth 64)

/-- `MemRead(addr, size)` by the debugger: the bytes it gets stand in `extData` (log 24). With `EXTERNAL_AGENT` = `ABSENT` there is
no such step (log 23). -/
def State.extReadStep (s : State) (addr : Word) (size : Nat) : Result :=
  match s.cfg.externalAgent with
  | .absent => .next s
  | .free =>
    match s.extTarget addr size with
    | .error why => .refused why
    | .ok n => .next { s with extData := extBytesOfWord s.cfg.extBigEndian (s.extRead n) }

/-- `MemWrite(addr, size, w)` by the debugger, of as many bytes as are given. With `EXTERNAL_AGENT` = `ABSENT` there is no such
step (log 23). -/
def State.extWriteStep (s : State) (addr : Word) (bytes : List Byte) : Result :=
  match s.cfg.externalAgent with
  | .absent => .next s
  | .free =>
    match s.extTarget addr bytes.length, bytes with
    | .error why, _ => .refused why
    | .ok n, [b0, b1, b2, b3] => s.extWrite n (extWordOfBytes s.cfg.extBigEndian b0 b1 b2 b3)
    | .ok _, _ => .refused .extWidth

end Sys2Proof.Machine
end

