-- ==== Sys2Proof/Machine/Sequencer.lean ====
section
/-! DEFINITION. The agent `Sequencer`: 41_sequencer_transitions.md R46 to R53 and the race of 20_memory.md R32. -/

namespace Sys2Proof.Machine

/-- While `PAUSED_HOLDS` and the resources are Paused no event fires (R50). -/
def State.pausedNow (s : State) : Bool :=
  s.inp.paused && s.cfg.pausedHolds

/-- `ImplementedSelector(i)` (10_state.md R16). -/
def selectorImplemented (c : Config) (i : Nat) : Bool :=
  c.implementedSelectors.getLsbD i

/-- `ImplementedPair(p)` (10_state.md R16, 92_eei_decisions.md D18). -/
def pairImplemented (c : Config) (p : Nat) : Bool :=
  c.implementedPairs.getLsbD p

/-- `UnpredictableFire()` (R49): the `k`-th draw decides, unless the Paused state holds. -/
def State.unpredictableFire (s : State) (k : Nat) : Bool :=
  if s.pausedNow then false else Config.freeBit k

/-- `Event(type, sel)` (R46) at the instant whose answers are `a`, under R50. -/
def State.event (s : State) (a : Answers) (k : Nat) (type : Bool) (sel : BitVec 5) : Bool :=
  if s.pausedNow then false
  else if type = false then
    if !selectorImplemented s.cfg (selectorIndex sel) then s.unpredictableFire k
    else a.selectors.getLsbD (selectorIndex sel)
  else if pairIndex sel = 0 then s.unpredictableFire k
  else if !pairImplemented s.cfg (pairIndex sel) then s.unpredictableFire k
  else a.pairs.getLsbD (pairIndex sel)

/-- The value of TRCSEQEVR<n> that governs an evaluation: the one it holds, or, until the next departure from Idle, any value
written over since (20_memory.md R32, log 21). The `k`-th draw chooses. -/
def State.governing (s : State) (n : RegIndex) (k : Nat) : Word :=
  match s.evr[n].stale with
  | [] => s.evr[n].value
  | old :: older =>
    let all := s.evr[n].value :: old :: older
    all.getD (Config.freeIndex k % all.length) s.evr[n].value

/-- The forward candidate fires: `(s <= 2) && Event(SEQEVR[s].F_TYPE, SEQEVR[s].F_SEL)` (R52, R47). -/
def State.forwardFires (s : State) (a : Answers) : Bool :=
  if h : s.seqState.val < 3 then
    let v := s.governing ⟨s.seqState.val, h⟩ s.draws
    s.event a s.draws (fType v) (fSel v)
  else false

/-- The backward candidate fires: `(s >= 1) && Event(SEQEVR[s-1].B_TYPE, SEQEVR[s-1].B_SEL)` (R52, R48). -/
def State.backwardFires (s : State) (a : Answers) : Bool :=
  if h : 0 < s.seqState.val then
    let v := s.governing ⟨s.seqState.val - 1, by omega⟩ (s.draws + 1)
    s.event a (s.draws + 1) (bType v) (bSel v)
  else false

/-- `s + 1`; state 3 has no state above it (10_state.md R21). -/
def seqUp (q : Fin 4) : Fin 4 :=
  if h : q.val < 3 then ⟨q.val + 1, by omega⟩ else q

/-- `s - 1`; state 0 has no state below it (10_state.md R21). -/
def seqDown (q : Fin 4) : Fin 4 :=
  ⟨q.val - 1, by omega⟩

/-- The state a choice leads to. -/
def seqMove (q : Fin 4) : SeqChoice → Fin 4
  | .stay => q
  | .forward => seqUp q
  | .backward => seqDown q

/-- `Simul(s)` (R52): both candidates fire. -/
def simul (c : Config) (k : Nat) : SeqChoice :=
  match c.seqSimul with
  | .any => Config.freeChoice k
  | .stay => .stay
  | .forwardWins => .forward
  | .backwardWins => .backward

/-- The four arms of `SequencerStep` (R52). -/
def State.seqNext (s : State) (a : Answers) : Fin 4 :=
  if s.forwardFires a && !s.backwardFires a then seqMove s.seqState .forward
  else if s.backwardFires a && !s.forwardFires a then seqMove s.seqState .backward
  else if s.forwardFires a && s.backwardFires a then seqMove s.seqState (simul s.cfg s.draws)
  else s.seqState

/-- A `SequencerStep` is enabled: the registers are present (00_scope.md R2) and, in the Idle state, `SEQ_IDLE_MOVES` (R52). -/
def State.sequencerEnabled (s : State) : Bool :=
  s.cfg.present && (!s.inp.idle || s.cfg.seqIdleMoves)

/-- `SequencerStep()` (R52): one evaluation instant, with draws of its own. One that is not enabled does nothing (log 23). -/
def State.sequencerStep (s : State) (a : Answers) : State :=
  if s.sequencerEnabled then
    { s with seqState := s.seqNext a, draws := s.draws + 2 }
  else s

/-- `SeqHavoc` (R53): `SeqState <- draw(0..3)`, when `SEQ_OTHER_MOVERS` is `FREE` (log 23). -/
def State.seqHavoc (s : State) : State :=
  if s.cfg.present && (s.cfg.otherMovers == .free) then
    { s with seqState := Config.freeSeqState s.draws, draws := s.draws + 1 }
  else s

end Sys2Proof.Machine
end

