-- ==== Sys2Proof/Machine/Agents.lean ====
section
/-! DEFINITION. One step of each agent (00_scope.md section 7 item 1; 20_memory.md R30: each is indivisible). -/

namespace Sys2Proof.Machine

/-- The PE: fetch the word at `pc`, decode it, run it. A word out of scope is refused by name (30_encoding.md R38). -/
def State.peStep (s : State) : Result :=
  match s.fetch with
  | .error f => .fault f
  | .ok bytes =>
    match decode bytes with
    | .instr i _ => exec i s
    | .rejected why => .refused (.notInScope why)

/-- The step of the agent that an entry of the schedule names. -/
def State.runMove (s : State) (m : Move) : Result :=
  match m with
  | .pe => s.peStep
  | .sequencer a => .next (s.sequencerStep a)
  | .extRead addr size => s.extReadStep addr size
  | .extWrite addr bytes => s.extWriteStep addr bytes
  | .traceUnitReset => .next s.traceUnitReset
  | .otherReset => .next s.otherReset
  | .seqHavoc => .next s.seqHavoc
  | .setInputs i => .next (s.setInputs i)
  | .setX t v => .next (s.writeX t v)

/-- The bytes of the first instruction of the opcode table's numbering: `w` holds `nbits` bits, the bits above them are 0. -/
def tableBytes (nbits w : Nat) : List Byte :=
  bytesOfWord (BitVec.ofNat 32 (w % 2 ^ nbits))

/-- The address `pc` is fetched at, at or below it: a multiple of 4 (log 15). -/
def alignedPc (pc : Word) : Word :=
  pc &&& 0xFFFFFFFFFFFFFFFC#64

end Sys2Proof.Machine
end

