-- ==== Sys2Proof/Machine/Step.lean ====
section
/-! DEFINITION. One step of the machine, and how an instruction comes to be the next one it runs (log 1, log 6). -/

namespace Sys2Proof.Machine

/-- The next agent of the schedule takes one step; with the schedule empty the PE does (log 6). -/
def step (s : State) : Host.Outcome State Fault Refusal :=
  match s.schedule with
  | [] => s.peStep
  | m :: rest => State.runMove { s with schedule := rest } m

/-- The state with an instruction stored where the next step fetches it: its word at `pc` (which a fetch needs aligned), and no
other agent's step before it. -/
def State.withFetchWord (s : State) (nbits w : Nat) : State :=
  { s with
    pc := alignedPc s.pc
    mem := Memory.writeBytes s.mem (alignedPc s.pc).toNat (tableBytes nbits w)
    schedule := [] }

end Sys2Proof.Machine
end

