-- ==== Sys2Proof/Safety.lean ====
section
/-! DEFINITION. What a safe run is, in the terms claims use: the invariant of the machine, the premise `SeqEvrProgrammed` of
40_sysreg_access.md R44, the boot duties of 70_reset_and_hazards.md R66, and when an event is defined (10_state.md R16, R17). -/

namespace Sys2Proof.Machine

/-- Under `RES0_MODE = RAZ_WI` the always-reserved positions of a value are 0 (10_state.md R19). -/
abbrev reservedClear (c : Config) (v : Word) : Prop :=
  c.res0Mode = .razWi → v &&& reservedMask = 0

/-- Every value a register holds, or held and may still govern by, is reserved-clear. -/
def Evr.Clear (c : Config) (e : Evr) : Prop :=
  reservedClear c e.value ∧ ∀ v ∈ e.stale, reservedClear c v

/-- With the spec's own refusals (`openWrite` = `refuse`), no older value may govern once the trace unit has left Idle
(20_memory.md R32). -/
abbrev State.Settled (s : State) : Prop :=
  s.cfg.openWrite = .refuse → s.inp.idle = false → ∀ n : RegIndex, s.evr[n].stale = []

/-- The invariant every step keeps: the memory is in its canonical form, the PE is at a level the implementation has, the
reserved positions are clear under `RAZ_WI`, and no write is pending outside Idle. -/
def State.Inv (s : State) : Prop :=
  Memory.wf s.mem ∧
  s.inp.el.implemented s.cfg = true ∧
  (∀ n : RegIndex, s.evr[n].Clear s.cfg) ∧
  s.Settled

/-- The causes of 60_exceptions.md R54 and R55 that apply at EL1, with their outcomes, in the order of R56: U3, T1, T2, T3, T4, U4. -/
def causesAtEl1 (c : Config) (i : Inputs) (d : Dir) : List (Bool × Access) :=
  [ (i.halted && c.haveEl3 && i.sdd && c.sddPriority && i.cptrEl3Tta, .undefined),
    (i.cpacrEl1Tta, .trap .el1),
    (i.el2Enabled && i.cptrEl2Tta, .trap .el2),
    (i.el2Enabled && (!c.haveEl3 || i.fgten) &&
      (match d with
        | .read => i.hdfgrtrTrc
        | .write => i.hdfgwtrTrc), .trap .el2),
    (c.haveEl3 && i.cptrEl3Tta && !(i.halted && i.sdd), .trap .el3),
    (c.haveEl3 && i.cptrEl3Tta && (i.halted && i.sdd), .undefined) ]

/-- The same at EL2: U3, T5, T6, U4. -/
def causesAtEl2 (c : Config) (i : Inputs) : List (Bool × Access) :=
  [ (i.halted && c.haveEl3 && i.sdd && c.sddPriority && i.cptrEl3Tta, .undefined),
    (i.cptrEl2Tta, .trap .el2),
    (c.haveEl3 && i.cptrEl3Tta && !(i.halted && i.sdd), .trap .el3),
    (c.haveEl3 && i.cptrEl3Tta && (i.halted && i.sdd), .undefined) ]

/-- The same at EL3: T7. -/
def causesAtEl3 (i : Inputs) : List (Bool × Access) :=
  [ (i.cptrEl3Tta, .trap .el3) ]

/-- The causes at a level; at EL0 the one cause U2 always holds (R54). -/
def causesAt (c : Config) (i : Inputs) (d : Dir) : List (Bool × Access) :=
  match i.el with
  | .el0 => [(true, .undefined)]
  | .el1 => causesAtEl1 c i d
  | .el2 => causesAtEl2 c i
  | .el3 => causesAtEl3 i

/-- The outcome of the first cause that holds; with none the access is allowed (R56). -/
def firstCause : List (Bool × Access) → Access
  | [] => .allow
  | (holds, outcome) :: rest => if holds then outcome else firstCause rest

/-- The forward candidate of 41_sequencer_transitions.md R52 fires: in a state below 3, the forward event of TRCSEQEVR<s>. -/
def State.ForwardCandidate (s : State) (a : Answers) : Prop :=
  ∃ n : RegIndex, n.val = s.seqState.val ∧
    s.event a s.draws (fType s.evr[n].value) (fSel s.evr[n].value) = true

/-- The backward candidate of R52 fires: in a state above 0, the backward event of TRCSEQEVR<s-1>. -/
def State.BackwardCandidate (s : State) (a : Answers) : Prop :=
  ∃ n : RegIndex, n.val + 1 = s.seqState.val ∧
    s.event a (s.draws + 1) (bType s.evr[n].value) (bSel s.evr[n].value) = true

/-- Some Resource Selector uses the Sequencer state: `TRCRSCTLR<a>.GROUP == 0b0010 && TRCRSCTLR<a>.SEQUENCER != 0b0000` for some
`a` (40_sysreg_access.md R44). -/
def State.sequencerUsed (s : State) : Bool :=
  s.inp.trcrsctlr.any (fun r => (r.group == 0b0010#4) && (r.sequencer != 0b0000#4))

/-- The launch premise `SeqEvrProgrammed` (40_sysreg_access.md R44). It is a duty of software: no step enforces it (log 26). -/
abbrev State.SeqEvrProgrammed (s : State) : Prop :=
  s.sequencerUsed = true → ∀ n : RegIndex, s.evr[n].programmed = true

/-- The event of a selection is defined: an implemented single selector, or an implemented pair other than pair 0 (10_state.md
R16, R17). -/
def selectionDefined (c : Config) (type : Bool) (sel : BitVec 5) : Bool :=
  if type = false then selectorImplemented c (selectorIndex sel)
  else decide (pairIndex sel ≠ 0) && pairImplemented c (pairIndex sel)

/-- Software has done what 70_reset_and_hazards.md R66 asks before it writes `v`: the access is allowed, the trace unit is Idle, no
RES0 bit is written as 1, and both events of `v` are defined. -/
abbrev State.BootReady (s : State) (v : Word) : Prop :=
  s.access .write = .allow ∧
  openReason s.inp.idle v = none ∧
  selectionDefined s.cfg (bType v) (bSel v) = true ∧
  selectionDefined s.cfg (fType v) (fSel v) = true

end Sys2Proof.Machine
end

