-- ==== Sys2Proof/Certificates/Slice0/Obligations.lean ====
section
/-! DEFINITION. The statements for the provers, from the numbered rules of spec/. Where a clause rests on a choice of the model,
its docstring names the log entry. -/

section

open Sys2Proof Sys2Proof.Machine

/-! ### Encoding -/

/-- Decoding the bytes of a well-formed instruction gives it back, with the bytes after them (30_encoding.md R34 to R37). -/
def Obligations.DecodeOfEncodeIsTheInstruction : Prop :=
  ∀ (i : Instr) (rest : List Byte), i.WellFormed → decode (encode i ++ rest) = .instr i rest

/-- A word that decodes is the word of what it decodes to, and that is well-formed: each encoding is read in one way. -/
def Obligations.DecodedWordIsItsEncoding : Prop :=
  ∀ (w : InstrWord) (i : Instr), decodeWord w = .instr i → i.WellFormed ∧ encodeWord i = w

/-- A decoder selects with mask 0xFFFFFCE0 and match 0xD5310080 (MRS) or 0xD5110080 (MSR), then requires CRm<1:0> != 0b11
(30_encoding.md R36). -/
def Obligations.DecoderSelectsByMaskAndMatch : Prop :=
  ∀ w : InstrWord,
    ((∃ i, decodeWord w = .instr i ∧ i.dir = .read) ↔
      (w &&& 0xFFFFFCE0#32 = 0xD5310080#32 ∧ w.extractLsb' 8 2 ≠ 0b11#2)) ∧
    ((∃ i, decodeWord w = .instr i ∧ i.dir = .write) ↔
      (w &&& 0xFFFFFCE0#32 = 0xD5110080#32 ∧ w.extractLsb' 8 2 ≠ 0b11#2))

/-- `t` = UInt(Rt), 0..31, and `n` = UInt(CRm<1:0>), 0..2 (30_encoding.md R37). -/
def Obligations.OperandsAreRtAndCrm : Prop :=
  ∀ (w : InstrWord) (i : Instr), decodeWord w = .instr i →
    i.rt = (w.extractLsb' 0 5).toNat ∧ i.rt ≤ 31 ∧ i.reg.val = (w.extractLsb' 8 2).toNat ∧ i.reg.val ≤ 2

/-- The words E1, E5, E6, E8, E9, E10 and E12 of 95_test_vectors.md section 2.2. -/
def Obligations.SpecWordsDecode : Prop :=
  decodeWord 0xD5310080 = .instr (.mrsTrcseqevr0 0) ∧
  decodeWord 0xD531019F = .instr (.mrsTrcseqevr1 31) ∧
  decodeWord 0xD531029E = .instr (.mrsTrcseqevr2 30) ∧
  decodeWord 0xD5110081 = .instr (.msrTrcseqevr0 1) ∧
  decodeWord 0xD5110183 = .instr (.msrTrcseqevr1 3) ∧
  decodeWord 0xD5110284 = .instr (.msrTrcseqevr2 4) ∧
  decodeWord 0xD5310380 = .rejected .crm3 ∧
  decodeWord 0xD5110380 = .rejected .crm3

/-- Every row of the table of 30_encoding.md R38, where the PE takes the next step, with nothing scheduled or as the next entry of
the schedule (log 6): a word in scope runs, and with the registers absent ends in `Undefined`; the
tuple with CRm = 0b0011 is refused (the spec's decision D25; log 18, DEDUCED), and so is every other word (log 18). -/
def Obligations.WordsInAndOutOfScope : Prop :=
  ∀ (s q : State) (w : InstrWord),
    ((s.schedule = [] ∧ q = s) ∨ ∃ later, s.schedule = .pe :: later ∧ q = { s with schedule := later }) →
    s.pc.toNat % 4 = 0 → Memory.readWordBytes s.mem s.pc.toNat = some (bytesOfWord w) →
    (∀ i : Instr, i.WellFormed → w = encodeWord i →
      step s = exec i q ∧ (s.cfg.present = false → step s = .fault .undefined)) ∧
    ((w &&& 0xFFFFFFE0#32 = 0xD5310380#32 ∨ w &&& 0xFFFFFFE0#32 = 0xD5110380#32) →
      step s = .refused (.notInScope .crm3)) ∧
    ((∀ i : Instr, i.WellFormed → w ≠ encodeWord i) → ∃ why, step s = .refused (.notInScope why))

/-! ### The step -/

/-- When the bytes at pc decode to an instruction, the PE's step is its exec: with nothing scheduled, and as the next entry of
the schedule, which is then taken off (log 6). With any entry next, the step is that entry's, from the state with it taken off. -/
def Obligations.StepRunsTheDecodedInstruction : Prop :=
  ∀ s : State,
    (∀ (bytes : List Byte) (i : Instr) (rest : List Byte),
      s.pc.toNat % 4 = 0 → Memory.readWordBytes s.mem s.pc.toNat = some bytes → decode bytes = .instr i rest →
      (s.schedule = [] → step s = exec i s) ∧
      (∀ later, s.schedule = .pe :: later → step s = exec i { s with schedule := later })) ∧
    (∀ m later, s.schedule = m :: later → step s = State.runMove { s with schedule := later } m)

/-- An instruction placed where the next step fetches is what that step runs, from every state (log 1). -/
def Obligations.PlacedInstructionIsRunNext : Prop :=
  ∀ (s : State) (i : Instr), i.WellFormed →
    step (s.withFetchWord 32 (encodeWord i).toNat) = exec i (s.withFetchWord 32 (encodeWord i).toNat)

/-! ### The access check -/

/-- The outcome of an access is that of the first cause that holds, in the order of 60_exceptions.md R56; the causes and outcomes are
those of the tables of R54 and R55. That the presence test comes first is the spec's decision D1 (log 27, DEDUCED). -/
def Obligations.AccessReportsTheFirstCause : Prop :=
  ∀ (c : Config) (i : Inputs) (d : Dir),
    accessCheck c i d = if c.present then firstCause (causesAt c i d) else .undefined

/-- Who may access: the table of 60_exceptions.md R58; and the registers are not banked by level, which the spec derives from
40_sysreg_access.md R40. -/
def Obligations.LevelsThatMayAccess : Prop :=
  (∀ (c : Config) (i : Inputs) (d : Dir), c.present = true →
    (i.el = .el0 → accessCheck c i d = .undefined) ∧
    (i.el = .el1 → (accessCheck c i d = .allow ↔ ∀ p ∈ causesAtEl1 c i d, p.1 = false)) ∧
    (i.el = .el2 → (accessCheck c i d = .allow ↔ ∀ p ∈ causesAtEl2 c i, p.1 = false)) ∧
    (i.el = .el3 → (accessCheck c i d = .allow ↔ i.cptrEl3Tta = false))) ∧
  (∀ (s : State) (i : Inputs) (n : RegIndex), ({ s with inp := i } : State).readReg n = s.readReg n)

/-- The one way `Halted()` and `EDSCR.SDD` enter the rules (60_exceptions.md R60): the access is as if not halted, but that with
EL3, `SDD` and `CPTR_EL3.TTA` an access from EL1 or EL2 that would trap to EL3 is `Undefined`, ahead of the other traps when
the implementation says so. And `SDD` has no other effect: unless the PE is halted at EL1 or EL2, with EL3 and `CPTR_EL3.TTA`, the
access is the same whatever it is. -/
def Obligations.HaltedMattersInOneWay : Prop :=
  ∀ (c : Config) (i running : Inputs) (d : Dir), running = { i with halted := false } →
    (¬(i.halted = true ∧ c.haveEl3 = true ∧ i.sdd = true ∧ i.cptrEl3Tta = true) →
      accessCheck c i d = accessCheck c running d) ∧
    (i.halted = true → c.haveEl3 = true → i.sdd = true → i.cptrEl3Tta = true → (i.el = .el1 ∨ i.el = .el2) →
      (accessCheck c running d = .trap .el3 → accessCheck c i d = .undefined) ∧
      (c.sddPriority = true → accessCheck c i d = .undefined) ∧
      (c.sddPriority = false → accessCheck c running d ≠ .trap .el3 → accessCheck c i d = accessCheck c running d)) ∧
    (i.el = .el3 → accessCheck c i d = accessCheck c running d) ∧
    (∀ b, ¬(i.halted = true ∧ c.haveEl3 = true ∧ i.cptrEl3Tta = true ∧ (i.el = .el1 ∨ i.el = .el2)) →
      accessCheck c { i with sdd := b } d = accessCheck c i d)

/-- The fine-grained bits are the only difference between a read and a write, they act at EL1 alone, with EL2 enabled and, where
EL3 exists, `SCR_EL3.FGTEn` (60_exceptions.md R59). -/
def Obligations.OnlyFineGrainedBitsTellReadFromWrite : Prop :=
  ∀ (c : Config) (i : Inputs),
    accessCheck c i .read ≠ accessCheck c i .write →
      i.hdfgrtrTrc ≠ i.hdfgwtrTrc ∧ i.el = .el1 ∧ i.el2Enabled = true ∧ (c.haveEl3 = true → i.fgten = true)

/-- The access check of a state is `AccessCheck` of 40_sysreg_access.md R40 on its inputs, a control bit whose register the
implementation lacks taken as 0 (10_state.md R22, 92_eei_decisions.md D23; `haveFgt` is DEDUCED, log 19); so no access depends on
such a bit, and with everything there it is R40's check of the inputs themselves. -/
def Obligations.AbsentControlBitsAreIgnored : Prop :=
  ∀ (s : State) (d : Dir) (b1 b2 b3 b4 b5 b6 : Bool),
    (∀ j : Inputs, j.el = s.inp.el → j.halted = s.inp.halted → j.sdd = s.inp.sdd →
      j.cpacrEl1Tta = s.inp.cpacrEl1Tta →
      j.cptrEl3Tta = (if s.cfg.haveEl3 then s.inp.cptrEl3Tta else false) →
      j.cptrEl2Tta = (if s.cfg.haveEl2 then s.inp.cptrEl2Tta else false) →
      j.el2Enabled = (if s.cfg.haveEl2 then s.inp.el2Enabled else false) →
      j.fgten = (if s.cfg.haveEl3 ∧ s.cfg.haveFgt then s.inp.fgten else false) →
      j.hdfgrtrTrc = (if s.cfg.haveEl2 ∧ s.cfg.haveFgt then s.inp.hdfgrtrTrc else false) →
      j.hdfgwtrTrc = (if s.cfg.haveEl2 ∧ s.cfg.haveFgt then s.inp.hdfgwtrTrc else false) →
      s.access d = accessCheck s.cfg j d) ∧
    (s.cfg.haveEl2 = true → s.cfg.haveEl3 = true → s.cfg.haveFgt = true → s.access d = accessCheck s.cfg s.inp d) ∧
    (s.cfg.haveEl3 = false →
      ({ s with inp := { s.inp with cptrEl3Tta := b1, fgten := b2 } } : State).access d = s.access d) ∧
    (s.cfg.haveEl2 = false →
      ({ s with inp := { s.inp with cptrEl2Tta := b3, el2Enabled := b4, hdfgrtrTrc := b5, hdfgwtrTrc := b6 } } :
        State).access d = s.access d) ∧
    (s.cfg.haveFgt = false →
      ({ s with inp := { s.inp with fgten := b2, hdfgrtrTrc := b5, hdfgwtrTrc := b6 } } : State).access d =
        s.access d)

/-! ### MRS and MSR -/

/-- The word and the pseudocode of 40_sysreg_access.md R41, for every n and every t: `Undefined` and the trap as the access check returns them,
else `x[t] <- SEQEVR[n]` (nothing written for t = 31), `pc <- pc + 4` and nothing else. The next state is stated below the top of the
address space (at it, `PcIsFreeAtTheTopOfMemory`), the exceptions everywhere. -/
def Obligations.MrsFollowsItsPseudocode : Prop :=
  ∀ (s : State) (i : Instr), i.dir = .read →
    (i.WellFormed → encodeWord i = 0xD5310080#32 ||| BitVec.ofNat 32 (i.reg.val * 2 ^ 8) ||| BitVec.ofNat 32 i.rt) ∧
    (s.access .read = .undefined → exec i s = .fault .undefined) ∧
    (∀ el, s.access .read = .trap el → exec i s = .fault (.trap el 0x18)) ∧
    (s.access .read = .allow → s.pc.toNat + 4 < 2 ^ 64 →
      exec i s = .next { s with
        x := if h : i.rt < 31 then s.x.set i.rt (s.readReg i.reg) else s.x
        pc := s.pc + 4 })

/-- The word and the pseudocode of 40_sysreg_access.md R42, for every n and every t: the access check before the tests, the tests in
their order, and the admitted write. The next state is stated below the top of the address space (at it,
`PcIsFreeAtTheTopOfMemory`), the exceptions and refusals everywhere. The test for Idle refuses when `openWrite` is `refuse`
(the spec's own choice; log 9), those for reserved bits always. -/
def Obligations.MsrFollowsItsPseudocode : Prop :=
  ∀ (s : State) (i : Instr) (v : Word), i.dir = .write → v = s.readX i.rt →
    (i.WellFormed → encodeWord i = 0xD5110080#32 ||| BitVec.ofNat 32 (i.reg.val * 2 ^ 8) ||| BitVec.ofNat 32 i.rt) ∧
    (s.access .write = .undefined → exec i s = .fault .undefined) ∧
    (∀ el, s.access .write = .trap el → exec i s = .fault (.trap el 0x18)) ∧
    (s.access .write = .allow → s.inp.idle = false → s.cfg.openWrite = .refuse →
      exec i s = .refused (.openWrite .notIdle)) ∧
    (s.access .write = .allow → s.inp.idle = true →
      (v &&& 0xFFFFFFFFFFFF6060#64 ≠ 0 → exec i s = .refused (.openWrite .res0)) ∧
      (v &&& 0xFFFFFFFFFFFF6060#64 = 0 →
        (v.getLsbD 15 = true ∧ v.getLsbD 12 = true → exec i s = .refused (.openWrite .bSel4)) ∧
        (¬(v.getLsbD 15 = true ∧ v.getLsbD 12 = true) →
          (v.getLsbD 7 = true ∧ v.getLsbD 4 = true → exec i s = .refused (.openWrite .fSel4)) ∧
          (¬(v.getLsbD 7 = true ∧ v.getLsbD 4 = true) → s.pc.toNat + 4 < 2 ^ 64 →
            ∃ u, exec i s = .next u ∧ u.evr[i.reg].value = v ∧ u.evr[i.reg].programmed = true ∧
              u.pc = s.pc + 4 ∧ u.seqState = s.seqState ∧ u.x = s.x ∧ ∀ m, m ≠ i.reg → u.evr[m] = s.evr[m]))))

/-- DESIGN CHOICE (log 9, log 10, log 11), on the continuation 40_sysreg_access.md R43 allows: with `openWrite` = `run` an allowed
`MSR` made while not Idle completes, the register and `SeqState` taking free values, subject to `RES0_MODE`; but a value with a 1
in a RES0 position is refused, as 10_state.md R19 point 2 says of every write. -/
def Obligations.OpenWritesRunWhenConfigured : Prop :=
  ∀ (s : State) (i : Instr), i.dir = .write → s.access .write = .allow →
    s.cfg.openWrite = .run → s.inp.idle = false →
    (∀ why, reservedReason (s.readX i.rt) = some why → exec i s = .refused (.openWrite why)) ∧
    (reservedReason (s.readX i.rt) = none →
      ∃ u, exec i s = .next u ∧
        u.seqState = Config.freeSeqState s.draws ∧
        u.evr[i.reg].value = drawnValue s.cfg.res0Mode (Config.freeWord (s.draws + 1)) ∧
        (s.cfg.res0Mode = .razWi → u.evr[i.reg].value &&& reservedMask = 0) ∧
        u.evr[i.reg].programmed = s.evr[i.reg].programmed ∧
        (s.pc.toNat + 4 < 2 ^ 64 → u.pc = s.pc + 4) ∧
        (¬ s.pc.toNat + 4 < 2 ^ 64 → u.pc = Config.freePc (s.draws + 2)))

/-- DESIGN CHOICE (log 14): at the top of the address space, where the spec does not state `pc + 4`, an allowed `MRS` and an
admitted `MSR` still have their effect and the pc is a free value. -/
def Obligations.PcIsFreeAtTheTopOfMemory : Prop :=
  ∀ (s : State) (i : Instr), ¬ s.pc.toNat + 4 < 2 ^ 64 → s.access i.dir = .allow →
    (i.dir = .read →
      exec i s = .next { s with
        x := if h : i.rt < 31 then s.x.set i.rt (s.readReg i.reg) else s.x
        pc := Config.freePc s.draws
        draws := s.draws + 1 }) ∧
    (i.dir = .write → openReason s.inp.idle (s.readX i.rt) = none →
      ∃ u, exec i s = .next u ∧ u.evr[i.reg].value = s.readX i.rt ∧ u.evr[i.reg].programmed = true ∧
        u.pc = Config.freePc (s.draws + 2))

/-- What a read returns in each position (10_state.md R19 point 3): the stored non-reserved bits exactly; in the always-reserved
positions 0, the stored bit, or the draw fixed at the last write or reset. That `SEL[4]` under `TYPE` = 1 reads as stored under
every mode is the model's reading (log 12, DEDUCED). -/
def Obligations.ReadReturnsByRes0Mode : Prop :=
  ∀ (s : State) (n : RegIndex) (k : Nat),
    (fieldMask.getLsbD k = true → (s.readReg n).getLsbD k = s.evr[n].value.getLsbD k) ∧
    (reservedMask.getLsbD k = true → (s.readReg n).getLsbD k =
      (match s.cfg.res0Mode with
        | .razWi => false
        | .storage => s.evr[n].value.getLsbD k
        | .any => s.evr[n].res0.getLsbD k))

/-- The instructions read and write no memory (20_memory.md R27, which the spec derives from R41 and R42): with other memory contents
each does the same and leaves them. -/
def Obligations.InstructionsTouchNoMemory : Prop :=
  ∀ (i : Instr) (s : State) (m : List Host.Cell),
    exec i { s with mem := m } = andThen (exec i s) (fun t => { t with mem := m }) ∧
    (∀ t, exec i s = .next t → t.mem = s.mem)

/-- The frame of the three `MRS`: every general register but the destination, every TRCSEQEVR, the Sequencer state, the inputs, the
parameters, every byte of memory and what the debugger last read stay. -/
def Obligations.MrsFrame : Prop :=
  ∀ (i : Instr) (s t : State), i.dir = .read → exec i s = .next t →
    (∀ k, k ≠ i.rt → t.readX k = s.readX k) ∧ t.readX 31 = 0 ∧
    t.evr = s.evr ∧ t.seqState = s.seqState ∧ t.inp = s.inp ∧ t.cfg = s.cfg ∧
    (∀ a, Memory.read t.mem a = Memory.read s.mem a) ∧ t.extData = s.extData ∧ t.schedule = s.schedule

/-- The frame of the three `MSR`: every general register, the other two TRCSEQEVR, the inputs, the parameters, every byte of memory
and what the debugger last read stay; so does the Sequencer state, but in a write that runs while not Idle (log 11). -/
def Obligations.MsrFrame : Prop :=
  ∀ (i : Instr) (s t : State), i.dir = .write → exec i s = .next t →
    t.x = s.x ∧ (∀ m, m ≠ i.reg → t.evr[m] = s.evr[m]) ∧
    (s.inp.idle = true ∨ s.cfg.openWrite = .refuse → t.seqState = s.seqState) ∧
    t.inp = s.inp ∧ t.cfg = s.cfg ∧
    (∀ a, Memory.read t.mem a = Memory.read s.mem a) ∧ t.extData = s.extData ∧ t.schedule = s.schedule

/-- Program order (20_memory.md R32): an `MRS` after an admitted `MSR` to the same register returns the value written, but for RES0
positions under `RES0_MODE = ANY`. -/
def Obligations.ReadAfterWriteReturnsTheValue : Prop :=
  ∀ (wr rd : Instr) (s u t : State), wr.dir = .write → rd.dir = .read → rd.reg = wr.reg → rd.rt < 31 →
    openReason s.inp.idle (s.readX wr.rt) = none → exec wr s = .next u → exec rd u = .next t →
    t.readX rd.rt &&& fieldMask = s.readX wr.rt ∧
    (s.cfg.res0Mode ≠ .any → t.readX rd.rt = s.readX wr.rt)

/-- Reads have no side effect (20_memory.md R30), and an UNKNOWN value is stable (10_state.md R18), which is the spec's decision D4
(log 8, DEDUCED): two reads in a row agree in every bit, under every `RES0_MODE`. -/
def Obligations.RepeatedReadsAgree : Prop :=
  ∀ (r1 r2 : Instr) (s u t : State), r1.dir = .read → r2.dir = .read → r2.reg = r1.reg →
    r1.rt < 31 → r2.rt < 31 → exec r1 s = .next u → exec r2 u = .next t →
    t.readX r2.rt = u.readX r1.rt

/-- With `PRESENT` false (00_scope.md R2) every `MRS` and `MSR` is `Undefined`, the Sequencer rules do not apply, and no step
changes what any register holds or the Sequencer state. That a Sequencer step or `SeqHavoc` then does nothing is log 23 (DESIGN
CHOICE), that a reset does nothing is log 25 (DEDUCED). -/
def Obligations.AbsentRegistersAreInert : Prop :=
  ∀ s : State, (s.cfg.haveFeatEte && s.cfg.numSeqState != 0#3) = false →
    (∀ i, exec i s = .fault .undefined) ∧
    (∀ a, s.sequencerStep a = s) ∧ s.seqHavoc = s ∧
    (∀ t, step s = .next t → t.seqState = s.seqState ∧
      ∀ n : RegIndex, t.evr[n].value = s.evr[n].value ∧ t.evr[n].programmed = s.evr[n].programmed)

/-! ### The register's fields -/

/-- `pack` is the inverse of the four extractors: of a value it gives its non-reserved bits, and of four fields the extractors
give them back (10_state.md R7). -/
def Obligations.FieldsPackAndUnpack : Prop :=
  (∀ v : Word, pack (bType v) (bSel v) (fType v) (fSel v) = v &&& 0x9F9F#64) ∧
  (∀ bt bs ft fs, bType (pack bt bs ft fs) = bt ∧ bSel (pack bt bs ft fs) = bs ∧
    fType (pack bt bs ft fs) = ft ∧ fSel (pack bt bs ft fs) = fs)

/-! ### The Sequencer -/

/-- `Event(type, sel)` (41_sequencer_transitions.md R46), while Paused does not hold the Sequencer: an implemented selector or pair
gives its output, an unimplemented one or pair 0 a free bit; and `SEL[4]` takes no part in a pair (10_state.md R15). -/
def Obligations.EventIsTheSelectedResource : Prop :=
  ∀ (s : State) (a : Answers) (k : Nat) (sel : BitVec 5),
    ¬(s.inp.paused = true ∧ s.cfg.pausedHolds = true) →
    (s.cfg.implementedSelectors.getLsbD sel.toNat = true →
      s.event a k false sel = a.selectors.getLsbD sel.toNat) ∧
    (s.cfg.implementedSelectors.getLsbD sel.toNat = false → s.event a k false sel = Config.freeBit k) ∧
    (sel.toNat % 16 ≠ 0 → s.cfg.implementedPairs.getLsbD (sel.toNat % 16) = true →
      s.event a k true sel = a.pairs.getLsbD (sel.toNat % 16)) ∧
    (sel.toNat % 16 = 0 ∨ s.cfg.implementedPairs.getLsbD (sel.toNat % 16) = false →
      s.event a k true sel = Config.freeBit k) ∧
    s.event a k true sel = s.event a k true (sel ^^^ 0b10000#5)

/-- The four arms of `SequencerStep` (41_sequencer_transitions.md R52), with no write pending (R32); `SequencerStepWithWritesPending`
is the same with writes pending. The arm of two events at once is the spec's decision D9 (log 22, DEDUCED), and that a step not
enabled does nothing is log 23 (DESIGN CHOICE). -/
def Obligations.SequencerStepFollowsItsArms : Prop :=
  ∀ (s t : State) (a : Answers) (q : Nat), (∀ n : RegIndex, s.evr[n].stale = []) → s.cfg.present = true →
    t = s.sequencerStep a → q = s.seqState.val →
    (s.inp.idle = true ∧ s.cfg.seqIdleMoves = false → t = s) ∧
    (s.inp.idle = false ∨ s.cfg.seqIdleMoves = true →
      (s.ForwardCandidate a → ¬ s.BackwardCandidate a → t.seqState.val = q + 1) ∧
      (s.BackwardCandidate a → ¬ s.ForwardCandidate a → t.seqState.val + 1 = q) ∧
      (¬ s.ForwardCandidate a → ¬ s.BackwardCandidate a → t.seqState.val = q) ∧
      (s.ForwardCandidate a → s.BackwardCandidate a →
        (s.cfg.seqSimul = .any →
          t.seqState.val + 1 = q ∨ t.seqState.val = q ∨ t.seqState.val = q + 1) ∧
        (s.cfg.seqSimul = .stay → t.seqState.val = q) ∧
        (s.cfg.seqSimul = .forwardWins → t.seqState.val = q + 1) ∧
        (s.cfg.seqSimul = .backwardWins → t.seqState.val + 1 = q)))

/-- Which registers matter in which state (41_sequencer_transitions.md R51, which the spec derives from R47 and R48): the forward half
of TRCSEQEVR<s> and the backward half of TRCSEQEVR<s-1> alone, as the values that govern have them (log 21, DEDUCED); no step
moves by more than one, down from 0, up from 3, or between 0 and 3. -/
def Obligations.OnlyCandidatesMoveTheSequencer : Prop :=
  ∀ (s : State) (a : Answers),
    (∀ u : State, u = { s with evr := u.evr } →
      (∀ n : RegIndex, n.val = s.seqState.val →
        fType (u.governing n s.draws) = fType (s.governing n s.draws) ∧
        fSel (u.governing n s.draws) = fSel (s.governing n s.draws)) →
      (∀ n : RegIndex, n.val + 1 = s.seqState.val →
        bType (u.governing n (s.draws + 1)) = bType (s.governing n (s.draws + 1)) ∧
        bSel (u.governing n (s.draws + 1)) = bSel (s.governing n (s.draws + 1))) →
      (u.sequencerStep a).seqState = (s.sequencerStep a).seqState) ∧
    (s.sequencerStep a).seqState.val ≤ s.seqState.val + 1 ∧
    s.seqState.val ≤ (s.sequencerStep a).seqState.val + 1

/-- The Paused state (41_sequencer_transitions.md R50, the spec's decision D8; log 22, DEDUCED): with `PAUSED_HOLDS` no event fires and
the state does not change while Paused; without it, Paused constrains nothing. -/
def Obligations.PausedHoldsTheSequencer : Prop :=
  ∀ (s : State) (a : Answers),
    (s.cfg.pausedHolds = true → s.inp.paused = true →
      (∀ k type sel, s.event a k type sel = false) ∧ (s.sequencerStep a).seqState = s.seqState) ∧
    (s.cfg.pausedHolds = false → ∀ p,
      (∀ k type sel, ({ s with inp := { s.inp with paused := p } } : State).event a k type sel = s.event a k type sel) ∧
      (({ s with inp := { s.inp with paused := p } } : State).sequencerStep a).seqState =
        (s.sequencerStep a).seqState)

/-- The frame of a Sequencer step and of `SeqHavoc` (41_sequencer_transitions.md R47, R48, R53): they write `SeqState` and take
draws, and nothing else; `SeqHavoc` draws the state when `SEQ_OTHER_MOVERS` is `FREE`. Under `NONE` the spec has no such step, and
that it does nothing there is log 23 (DESIGN CHOICE). -/
def Obligations.SequencerWritesOnlyItsState : Prop :=
  ∀ (s : State) (a : Answers),
    (∃ q d, s.sequencerStep a = { s with seqState := q, draws := d }) ∧
    (s.cfg.otherMovers = .none → s.seqHavoc = s) ∧
    (s.cfg.otherMovers = .free → s.cfg.present = true →
      s.seqHavoc = { s with seqState := Config.freeSeqState s.draws, draws := s.draws + 1 })

/-- When a write governs the Sequencer (20_memory.md R32, log 21): at every evaluation it is the value the register holds or one it
held before, after an admitted write that one may be the value before it, and from the departure from Idle it is the value held. -/
def Obligations.WriteGovernsFromTheDepartureFromIdle : Prop :=
  ∀ (s : State) (n : RegIndex) (k : Nat),
    (s.governing n k = s.evr[n].value ∨ s.governing n k ∈ s.evr[n].stale) ∧
    (∀ v, (s.admittedWrite n v).evr[n].stale = s.evr[n].value :: s.evr[n].stale) ∧
    (∀ i : Inputs, s.inp.idle = true → i.idle = false → i.el.implemented s.cfg = true →
      (s.setInputs i).inp = i ∧ (s.setInputs i).governing n k = s.evr[n].value)

/-! ### The external view -/

/-- An external write (20_memory.md R28): 4 aligned bytes at `EXT_BASE + EXT_OFFSET(n)`, little-endian unless `EXT_BIG_ENDIAN`
(R29), passing the tests, put `zext_64(w)` into TRCSEQEVR<n> and set `Programmed[n]`; the general registers, the pc, the Sequencer
state, the other registers and memory stay. DESIGN CHOICE (log 24): the hardware puts no condition of its own on the access, and
the sum of base and offset wraps. `ExternalWriteMakesItsTests` is about the writes that fail a test. -/
def Obligations.ExternalWriteStoresTheWord : Prop :=
  ∀ (s : State) (n : RegIndex) (w : InstrWord) (addr : Word),
    s.cfg.externalAgent = .free → s.cfg.present = true →
    addr = s.cfg.extBase + s.cfg.extOffset[n] → (∀ m : RegIndex, s.cfg.extOffset[m] = s.cfg.extOffset[n] → m = n) →
    addr.toNat % 4 = 0 → s.inp.idle = true → w &&& 0xFFFF6060#32 = 0 →
    ¬(w.getLsbD 15 = true ∧ w.getLsbD 12 = true) → ¬(w.getLsbD 7 = true ∧ w.getLsbD 4 = true) →
    ∃ u, s.runMove (.extWrite addr
        (if s.cfg.extBigEndian then (bytesOfWord w).reverse else bytesOfWord w)) = .next u ∧
      u.evr[n].value = w.setWidth 64 ∧ u.evr[n].programmed = true ∧
      (∀ m, m ≠ n → u.evr[m] = s.evr[m]) ∧ u.x = s.x ∧ u.pc = s.pc ∧ u.seqState = s.seqState ∧ u.mem = s.mem

/-- An external read (20_memory.md R28, R29) gives the debugger bits [31:0] of what an `MRS` of that register returns, and changes
nothing else. DESIGN CHOICE (log 24): where its data stands, no condition on the access, and the wrap of the address sum. -/
def Obligations.ExternalReadReturnsTheLowHalf : Prop :=
  ∀ (s : State) (n : RegIndex) (addr : Word),
    s.cfg.externalAgent = .free → s.cfg.present = true →
    addr = s.cfg.extBase + s.cfg.extOffset[n] → (∀ m : RegIndex, s.cfg.extOffset[m] = s.cfg.extOffset[n] → m = n) →
    addr.toNat % 4 = 0 →
    s.runMove (.extRead addr 4) = .next { s with
      extData :=
        if s.cfg.extBigEndian then (bytesOfWord ((s.readReg n).extractLsb' 0 32)).reverse
        else bytesOfWord ((s.readReg n).extractLsb' 0 32) }

/-- External accesses of another width or alignment are refused (20_memory.md R30), whatever the address. -/
def Obligations.ExternalAccessOfAnotherShapeIsRefused : Prop :=
  ∀ (s : State) (addr : Word) (size : Nat) (bytes : List Byte), s.cfg.externalAgent = .free →
    (size ≠ 4 → s.runMove (.extRead addr size) = .refused .extWidth) ∧
    (bytes.length ≠ 4 → s.runMove (.extWrite addr bytes) = .refused .extWidth) ∧
    (addr.toNat % 4 ≠ 0 → s.runMove (.extRead addr 4) = .refused .extMisaligned) ∧
    (addr.toNat % 4 ≠ 0 → bytes.length = 4 → s.runMove (.extWrite addr bytes) = .refused .extMisaligned)

/-- One stored value, two views (20_memory.md R31): at any instant bits [31:0] read the same through both, and a write through
either is what both read after it. -/
def Obligations.TwoViewsOneStorage : Prop :=
  ∀ (s : State) (n : RegIndex),
    (∀ k < 32, (s.extRead n).getLsbD k = (s.readReg n).getLsbD k) ∧
    (∀ w u, s.extWrite n w = .next u → openReason s.inp.idle (w.setWidth 64) = none →
      u.readReg n &&& fieldMask = w.setWidth 64 ∧ u.extRead n &&& 0x9F9F#32 = w) ∧
    (∀ i u, i.dir = .write → i.reg = n → openReason s.inp.idle (s.readX i.rt) = none → exec i s = .next u →
      u.readReg n &&& fieldMask = s.readX i.rt ∧ u.extRead n &&& 0x9F9F#32 = (s.readX i.rt).setWidth 32)

/-! ### Resets -/

/-- A Trace unit reset (70_reset_and_hazards.md R64) with the registers present: every field of every register, what its reserved
bits hold (0 under `RAZ_WI`) and the Sequencer state are drawn, each register from a draw of its own, `Programmed` is false, and
the general registers, the pc, the inputs and memory stay. Every other reset is the same (R65, the spec's decision D5); that it
leaves the general registers, the pc and the inputs is the model's (log 25, DEDUCED): R65 does not promise it. -/
def Obligations.ResetsDrawEveryField : Prop :=
  ∀ s t : State, s.cfg.present = true → t = s.traceUnitReset →
    (∀ n : RegIndex, t.evr[n].programmed = false ∧
      t.evr[n].value &&& fieldMask = Config.freeWord (s.draws + 2 * n.val) &&& fieldMask ∧
      (s.cfg.res0Mode = .razWi → t.evr[n].value &&& reservedMask = 0) ∧
      (s.cfg.res0Mode ≠ .razWi → t.evr[n].value = Config.freeWord (s.draws + 2 * n.val))) ∧
    t.seqState = Config.freeSeqState s.draws ∧
    t.x = s.x ∧ t.pc = s.pc ∧ t.inp = s.inp ∧ t.mem = s.mem ∧
    s.runMove .traceUnitReset = .next t ∧ s.runMove .otherReset = .next t

/-- The state after reset meets the invariant, and no register is programmed in it (70_reset_and_hazards.md R64). -/
def Obligations.ResetMeetsTheInvariant : Prop :=
  State.reset.Inv ∧ ∀ n : RegIndex, State.reset.evr[n].programmed = false

/-! ### The whole machine -/

/-- Every step of every agent keeps the invariant: the memory in its canonical form, the PE at a level the implementation has, the
reserved positions clear under `RAZ_WI` (10_state.md R19), no write pending outside Idle (20_memory.md R32). -/
def Obligations.EveryStepKeepsTheInvariant : Prop :=
  ∀ s t : State, s.Inv → step s = .next t → t.Inv

/-- No step changes a parameter (00_scope.md R4) or the program text (20_memory.md R33). -/
def Obligations.ParametersAndProgramTextAreFixed : Prop :=
  ∀ s t : State, step s = .next t → t.cfg = s.cfg ∧ t.mem = s.mem

/-- What changes a register TRCSEQEVR<n>: an allowed `MSR` that names it, an external write that reaches it, or a reset, and no
other step of any agent. -/
def Obligations.OnlyItsWritersChangeARegister : Prop :=
  ∀ (s t : State) (n : RegIndex), step s = .next t → t.evr[n].value ≠ s.evr[n].value →
    s.cfg.present = true ∧
    ((∃ bytes i rest, (s.schedule = [] ∨ ∃ later, s.schedule = .pe :: later) ∧
        s.fetch = .ok bytes ∧ decode bytes = .instr i rest ∧ i.dir = .write ∧ i.reg = n ∧ s.access .write = .allow) ∨
     (∃ addr bytes later, s.schedule = .extWrite addr bytes :: later ∧
        s.cfg.externalAgent = .free ∧ bytes.length = 4 ∧ extIndex s.cfg addr = some n) ∨
     (∃ later, s.schedule = .traceUnitReset :: later) ∨ (∃ later, s.schedule = .otherReset :: later))

/-- What changes the pc: an `MRS` or `MSR` of the PE that the access check allows. What changes a general register, which is one of
X0 to X30: an allowed `MRS` that names it, which leaves in it what a read of its TRCSEQEVR returns, or the environment's change of
that input (00_scope.md R4; log 31, DEDUCED). That no reset changes them is log 25 (DEDUCED). -/
def Obligations.OnlyItsWritersChangeAGeneralRegisterOrPc : Prop :=
  ∀ s t : State, step s = .next t →
    (t.pc ≠ s.pc →
      ∃ bytes i rest, (s.schedule = [] ∨ ∃ later, s.schedule = .pe :: later) ∧
        s.fetch = .ok bytes ∧ decode bytes = .instr i rest ∧ s.access i.dir = .allow) ∧
    (t.x ≠ s.x → ∃ k, t.readX k ≠ s.readX k) ∧
    (∀ k, t.readX k ≠ s.readX k →
      k < 31 ∧
      ((∃ bytes i rest, (s.schedule = [] ∨ ∃ later, s.schedule = .pe :: later) ∧
          s.fetch = .ok bytes ∧ decode bytes = .instr i rest ∧ s.access .read = .allow ∧
          i.dir = .read ∧ i.rt = k ∧ t.readX k = s.readReg i.reg) ∨
       (∃ v later, s.schedule = .setX k v :: later ∧ t.readX k = v)))

/-- What changes the Sequencer state, with the registers present: its own step, another mover, a reset, or (log 9, log 11) a write
that runs while not Idle: an allowed `MSR`, or a 4-byte external write that reaches a window. -/
def Obligations.OnlyItsMoversChangeTheSequencerState : Prop :=
  ∀ s t : State, step s = .next t → t.seqState ≠ s.seqState →
    s.cfg.present = true ∧
    ((∃ a later, s.schedule = .sequencer a :: later) ∨
     (∃ later, s.schedule = .seqHavoc :: later ∧ s.cfg.otherMovers = .free) ∨
     (∃ later, s.schedule = .traceUnitReset :: later) ∨ (∃ later, s.schedule = .otherReset :: later) ∨
     (s.inp.idle = false ∧ s.cfg.openWrite = .run ∧
      ((∃ bytes i rest, (s.schedule = [] ∨ ∃ later, s.schedule = .pe :: later) ∧
          s.fetch = .ok bytes ∧ decode bytes = .instr i rest ∧ i.dir = .write ∧ s.access .write = .allow) ∨
       (∃ addr bytes later, s.schedule = .extWrite addr bytes :: later ∧
          s.cfg.externalAgent = .free ∧ bytes.length = 4 ∧ ∃ n, extIndex s.cfg addr = some n))))

/-- `Programmed[n]` is set by an admitted write of that register and cleared by a reset alone (10_state.md R25): a step that is no
reset keeps it set, and one that sets it is an allowed `MSR` of n, or an external write of n, made while Idle with a value that
passes the tests for reserved bits, and leaves that value in the register. -/
def Obligations.ProgrammedLastsUntilAReset : Prop :=
  ∀ (s t : State) (n : RegIndex), step s = .next t →
    (s.evr[n].programmed = true →
      (∀ later, s.schedule ≠ .traceUnitReset :: later) → (∀ later, s.schedule ≠ .otherReset :: later) →
      t.evr[n].programmed = true) ∧
    (s.evr[n].programmed = false → t.evr[n].programmed = true →
      s.cfg.present = true ∧ s.inp.idle = true ∧
      ((∃ bytes i rest, (s.schedule = [] ∨ ∃ later, s.schedule = .pe :: later) ∧
          s.fetch = .ok bytes ∧ decode bytes = .instr i rest ∧ i.dir = .write ∧ i.reg = n ∧
          s.access .write = .allow ∧ reservedReason (s.readX i.rt) = none ∧ t.evr[n].value = s.readX i.rt) ∨
       (∃ addr b0 b1 b2 b3 later w, s.schedule = .extWrite addr [b0, b1, b2, b3] :: later ∧
          s.cfg.externalAgent = .free ∧ extIndex s.cfg addr = some n ∧
          w = (extWordOfBytes s.cfg.extBigEndian b0 b1 b2 b3).setWidth 64 ∧
          reservedReason w = none ∧ t.evr[n].value = w)))

/-- Three admitted writes, one of each register, meet the launch premise `SeqEvrProgrammed` (40_sysreg_access.md R44), whatever the
Resource Selectors use. -/
def Obligations.ThreeWritesMeetTheLaunchPremise : Prop :=
  ∀ (t0 t1 t2 : Nat) (s u v w : State),
    openReason s.inp.idle (s.readX t0) = none → openReason s.inp.idle (s.readX t1) = none →
    openReason s.inp.idle (s.readX t2) = none →
    exec (.msrTrcseqevr0 t0) s = .next u → exec (.msrTrcseqevr1 t1) u = .next v →
    exec (.msrTrcseqevr2 t2) v = .next w → w.SeqEvrProgrammed

/-- Software that has done what 70_reset_and_hazards.md R66 asks: its write completes, and once the trace unit leaves Idle both
events of the register are those of the value written, with no free value in them. -/
def Obligations.BootReadyWriteDefinesItsEvents : Prop :=
  ∀ (s : State) (i : Instr) (v : Word), i.dir = .write → v = s.readX i.rt → s.BootReady v →
    ∃ u, exec i s = .next u ∧
      ∀ (j : Inputs) (w : State) (a : Answers) (k k' : Nat),
        j.idle = false → j.paused = false → j.el.implemented s.cfg = true → w = u.setInputs j →
        w.event a k (fType (w.governing i.reg k')) (fSel (w.governing i.reg k')) =
          (if fType v then a.pairs.getLsbD (pairIndex (fSel v)) else a.selectors.getLsbD (selectorIndex (fSel v))) ∧
        w.event a k (bType (w.governing i.reg k')) (bSel (w.governing i.reg k')) =
          (if bType v then a.pairs.getLsbD (pairIndex (bSel v)) else a.selectors.getLsbD (selectorIndex (bSel v)))

/-! ### Beside the statements above -/

/-- The arms of `SequencerStep` (41_sequencer_transitions.md R52) in every state in which it is enabled, writes pending or not: for
each register and each half some value it holds or held before its writes governs (20_memory.md R32; log 21, DEDUCED), and the step
follows the arms with the events of those values. The arm of two events at once is the spec's decision D9 (log 22, DEDUCED). -/
def Obligations.SequencerStepWithWritesPending : Prop :=
  ∀ (s t : State) (a : Answers) (q : Nat), s.cfg.present = true →
    (s.inp.idle = false ∨ s.cfg.seqIdleMoves = true) → t = s.sequencerStep a → q = s.seqState.val →
    ∃ (f b : RegIndex → Word) (fwd bwd : Bool),
      (∀ n : RegIndex, f n = s.evr[n].value ∨ f n ∈ s.evr[n].stale) ∧
      (∀ n : RegIndex, b n = s.evr[n].value ∨ b n ∈ s.evr[n].stale) ∧
      (fwd = true ↔ ∃ n : RegIndex, n.val = q ∧ s.event a s.draws (fType (f n)) (fSel (f n)) = true) ∧
      (bwd = true ↔ ∃ n : RegIndex, n.val + 1 = q ∧ s.event a (s.draws + 1) (bType (b n)) (bSel (b n)) = true) ∧
      (fwd = true → bwd = false → t.seqState.val = q + 1) ∧
      (fwd = false → bwd = true → t.seqState.val + 1 = q) ∧
      (fwd = false → bwd = false → t.seqState.val = q) ∧
      (fwd = true → bwd = true →
        (s.cfg.seqSimul = .any →
          t.seqState.val + 1 = q ∨ t.seqState.val = q ∨ t.seqState.val = q + 1) ∧
        (s.cfg.seqSimul = .stay → t.seqState.val = q) ∧
        (s.cfg.seqSimul = .forwardWins → t.seqState.val = q + 1) ∧
        (s.cfg.seqSimul = .backwardWins → t.seqState.val + 1 = q))

/-- No step but the environment's change of the inputs changes them (10_state.md R22, 00_scope.md section 7 item 2: the model reads
them and never computes them), and it sets them to what the environment says, at a level the implementation has (log 19, log 23). -/
def Obligations.OnlyTheEnvironmentChangesTheInputs : Prop :=
  ∀ s t : State, step s = .next t → t.inp ≠ s.inp →
    ∃ i later, s.schedule = .setInputs i :: later ∧ t.inp = i ∧ i.el.implemented s.cfg = true

/-- The frame of a change of the inputs (00_scope.md section 7 item 1 (d)), Idle or not and under either `openWrite`: the parameters,
the general registers, the pc, the Sequencer state, what every register holds, reads as and its `Programmed`, memory and what the
debugger last read stay; which older values may still govern changes only on a departure from Idle (20_memory.md R32; log 21). A
change to a level the implementation lacks does nothing (log 19, log 23). -/
def Obligations.ChangeOfInputsFrame : Prop :=
  ∀ (s t : State) (i : Inputs), t = s.setInputs i →
    s.runMove (.setInputs i) = .next t ∧
    (i.el.implemented s.cfg = true → t.inp = i) ∧
    (i.el.implemented s.cfg = false → t = s) ∧
    t.cfg = s.cfg ∧ t.x = s.x ∧ t.pc = s.pc ∧ t.seqState = s.seqState ∧
    (∀ n : RegIndex, t.evr[n].value = s.evr[n].value ∧ t.evr[n].res0 = s.evr[n].res0 ∧
      t.evr[n].programmed = s.evr[n].programmed ∧ t.readReg n = s.readReg n) ∧
    (¬(s.inp.idle = true ∧ i.idle = false) → t.evr = s.evr) ∧
    (∀ a, Memory.read t.mem a = Memory.read s.mem a) ∧ t.draws = s.draws ∧
    t.extData = s.extData ∧ t.schedule = s.schedule

/-- The tests of `ExtWrite` (20_memory.md R28), on 4 aligned bytes at `EXT_BASE + EXT_OFFSET(n)`: while not Idle the write is refused
when `openWrite` is `refuse` (log 9); else a 1 in a RES0 position is refused by the name of the first test it fails; and what is left
while not Idle under `run` is the continuation of 40_sysreg_access.md R43 (log 11). No condition on the access: log 24. -/
def Obligations.ExternalWriteMakesItsTests : Prop :=
  ∀ (s : State) (n : RegIndex) (w : InstrWord) (addr : Word) (r : Result),
    s.cfg.externalAgent = .free → s.cfg.present = true →
    addr = s.cfg.extBase + s.cfg.extOffset[n] → (∀ m : RegIndex, s.cfg.extOffset[m] = s.cfg.extOffset[n] → m = n) →
    addr.toNat % 4 = 0 →
    r = s.runMove (.extWrite addr (if s.cfg.extBigEndian then (bytesOfWord w).reverse else bytesOfWord w)) →
    (s.inp.idle = false → s.cfg.openWrite = .refuse → r = .refused (.openWrite .notIdle)) ∧
    (s.inp.idle = true ∨ s.cfg.openWrite = .run →
      (w &&& 0xFFFF6060#32 ≠ 0 → r = .refused (.openWrite .res0)) ∧
      (w &&& 0xFFFF6060#32 = 0 →
        (w.getLsbD 15 = true ∧ w.getLsbD 12 = true → r = .refused (.openWrite .bSel4)) ∧
        (¬(w.getLsbD 15 = true ∧ w.getLsbD 12 = true) →
          (w.getLsbD 7 = true ∧ w.getLsbD 4 = true → r = .refused (.openWrite .fSel4)) ∧
          (¬(w.getLsbD 7 = true ∧ w.getLsbD 4 = true) → s.inp.idle = false →
            ∃ u, r = .next u ∧ u.seqState = Config.freeSeqState s.draws ∧
              u.evr[n].value = drawnValue s.cfg.res0Mode (Config.freeWord (s.draws + 1)) ∧
              u.evr[n].programmed = s.evr[n].programmed ∧ (∀ m, m ≠ n → u.evr[m] = s.evr[m]) ∧
              u.x = s.x ∧ u.pc = s.pc ∧ u.mem = s.mem))))

/-- A write whose value has a 1 in a RES0 position is refused, by either view, Idle or not, under either `openWrite` (10_state.md R15,
R19 point 2, the spec's decisions D2 and D3); and one whose value has none is refused only while not Idle. -/
def Obligations.ReservedBitsAreNeverWritten : Prop :=
  ∀ (s : State) (n : RegIndex) (v : Word),
    (v &&& 0xFFFFFFFFFFFF6060#64 ≠ 0 ∨ (v.getLsbD 15 = true ∧ v.getLsbD 12 = true) ∨
        (v.getLsbD 7 = true ∧ v.getLsbD 4 = true) →
      (∀ i : Instr, i.dir = .write → s.readX i.rt = v → s.access .write = .allow →
        ∃ why, exec i s = .refused (.openWrite why)) ∧
      (∀ w : InstrWord, w.setWidth 64 = v → ∃ why, s.extWrite n w = .refused (.openWrite why))) ∧
    (v &&& 0xFFFFFFFFFFFF6060#64 = 0 ∧ ¬(v.getLsbD 15 = true ∧ v.getLsbD 12 = true) ∧
        ¬(v.getLsbD 7 = true ∧ v.getLsbD 4 = true) →
      (∀ i why, i.dir = .write → s.readX i.rt = v → exec i s = .refused why →
        s.inp.idle = false ∧ why = .openWrite .notIdle) ∧
      (∀ w why, w.setWidth 64 = v → s.extWrite n w = .refused why →
        s.inp.idle = false ∧ why = .openWrite .notIdle))

/-- The next entry of the schedule is one whole step of its agent (00_scope.md section 7 item 1; log 6), which happens: the Sequencer
evaluates its events once (41_sequencer_transitions.md R52), another mover moves it (R53), a reset is made (70_reset_and_hazards.md
R64, R65), the environment changes the inputs, or the input `X[t]` (00_scope.md R4; log 31); each is a next state. -/
def Obligations.ScheduledAgentsTakeTheirStep : Prop :=
  ∀ (s q : State) (later : List Move), q = { s with schedule := later } →
    (∀ a, s.schedule = .sequencer a :: later → step s = .next (q.sequencerStep a)) ∧
    (s.schedule = .seqHavoc :: later → step s = .next q.seqHavoc) ∧
    (s.schedule = .traceUnitReset :: later → step s = .next q.traceUnitReset) ∧
    (s.schedule = .otherReset :: later → step s = .next q.traceUnitReset) ∧
    (∀ i, s.schedule = .setInputs i :: later → step s = .next (q.setInputs i)) ∧
    (∀ k v, s.schedule = .setX k v :: later → step s = .next (q.writeX k v)) ∧
    (∀ a, q.runMove (.sequencer a) = .next (q.sequencerStep a)) ∧
    q.runMove .seqHavoc = .next q.seqHavoc

/-- The environment's change of the input `X[t]` (00_scope.md R4; log 31, DEDUCED), for every t: the register then reads as the value
given, register 31 still as 0 (10_state.md R23; log 16, PRESUMED), and every other general register, the pc, the three TRCSEQEVR,
the Sequencer state, the other inputs, the parameters, every byte of memory and what the debugger last read stay. -/
def Obligations.ChangeOfAGeneralRegister : Prop :=
  ∀ (s : State) (k : Nat) (v : Word),
    ∃ u, s.runMove (.setX k v) = .next u ∧
      (k < 31 → u.readX k = v) ∧ (¬ k < 31 → u = s) ∧ (∀ j, j ≠ k → u.readX j = s.readX j) ∧ u.readX 31 = 0 ∧
      u.pc = s.pc ∧ u.evr = s.evr ∧ u.seqState = s.seqState ∧ u.inp = s.inp ∧ u.cfg = s.cfg ∧
      (∀ a, Memory.read u.mem a = Memory.read s.mem a) ∧ u.draws = s.draws ∧
      u.extData = s.extData ∧ u.schedule = s.schedule

end
end

