-- ==== Sys2Proof/Laws/Decode.lean ====
section
/-! SUPPORT. Splitting a word into bytes or fields and joining them again loses no bit. -/

namespace Sys2Proof

/-- The bytes of a word, joined in their order, are the word. -/
theorem wordOfBytes_bytes (w : InstrWord) :
    wordOfBytes (w.extractLsb' 0 8) (w.extractLsb' 8 8) (w.extractLsb' 16 8) (w.extractLsb' 24 8) = w := by
  apply BitVec.eq_of_getLsbD_eq
  intro i hi
  simp only [wordOfBytes, BitVec.getLsbD_append, BitVec.getLsbD_extractLsb']
  interval_cases i <;> simp

/-- The fields of a word, joined, are the word. -/
theorem wordOfFields_fieldsOfWord (w : InstrWord) : wordOfFields (fieldsOfWord w) = w := by
  apply BitVec.eq_of_getLsbD_eq
  intro i hi
  simp only [wordOfFields, fieldsOfWord, BitVec.getLsbD_append, BitVec.getLsbD_extractLsb']
  interval_cases i <;> simp

/-- Decoding the bytes of a word is decoding the word. -/
theorem decode_bytesOfWord (w : InstrWord) (rest : List Byte) :
    decode (bytesOfWord w ++ rest) =
      match decodeWord w with
      | .instr i => .instr i rest
      | .rejected why => .rejected why := by
  cases h : decodeWord w <;>
    simp only [bytesOfWord, List.cons_append, List.nil_append, decode, wordOfBytes_bytes, h]

end Sys2Proof
end

