-- ==== Sys2Proof/Laws/State.lean ====
section
/-! SUPPORT. One lemma per field per update: what each named operation leaves of a state. -/

namespace Sys2Proof.Machine

variable (s : State) (n : RegIndex) (t : Nat) (v : Word) (b : Bool)

@[simp] theorem writeX_cfg : (s.writeX t v).cfg = s.cfg := by unfold State.writeX; split <;> rfl
@[simp] theorem writeX_inp : (s.writeX t v).inp = s.inp := by unfold State.writeX; split <;> rfl
@[simp] theorem writeX_pc : (s.writeX t v).pc = s.pc := by unfold State.writeX; split <;> rfl
@[simp] theorem writeX_evr : (s.writeX t v).evr = s.evr := by unfold State.writeX; split <;> rfl
@[simp] theorem writeX_seqState : (s.writeX t v).seqState = s.seqState := by unfold State.writeX; split <;> rfl
@[simp] theorem writeX_mem : (s.writeX t v).mem = s.mem := by unfold State.writeX; split <;> rfl
@[simp] theorem writeX_draws : (s.writeX t v).draws = s.draws := by unfold State.writeX; split <;> rfl
@[simp] theorem writeX_extData : (s.writeX t v).extData = s.extData := by unfold State.writeX; split <;> rfl
@[simp] theorem writeX_schedule : (s.writeX t v).schedule = s.schedule := by unfold State.writeX; split <;> rfl

@[simp] theorem advancePc_cfg : s.advancePc.cfg = s.cfg := by unfold State.advancePc; split <;> rfl
@[simp] theorem advancePc_inp : s.advancePc.inp = s.inp := by unfold State.advancePc; split <;> rfl
@[simp] theorem advancePc_x : s.advancePc.x = s.x := by unfold State.advancePc; split <;> rfl
@[simp] theorem advancePc_evr : s.advancePc.evr = s.evr := by unfold State.advancePc; split <;> rfl
@[simp] theorem advancePc_seqState : s.advancePc.seqState = s.seqState := by unfold State.advancePc; split <;> rfl
@[simp] theorem advancePc_mem : s.advancePc.mem = s.mem := by unfold State.advancePc; split <;> rfl
@[simp] theorem advancePc_extData : s.advancePc.extData = s.extData := by unfold State.advancePc; split <;> rfl
@[simp] theorem advancePc_schedule : s.advancePc.schedule = s.schedule := by unfold State.advancePc; split <;> rfl

@[simp] theorem putReg_cfg : (s.putReg n v b).cfg = s.cfg := rfl
@[simp] theorem putReg_inp : (s.putReg n v b).inp = s.inp := rfl
@[simp] theorem putReg_x : (s.putReg n v b).x = s.x := rfl
@[simp] theorem putReg_pc : (s.putReg n v b).pc = s.pc := rfl
@[simp] theorem putReg_seqState : (s.putReg n v b).seqState = s.seqState := rfl
@[simp] theorem putReg_mem : (s.putReg n v b).mem = s.mem := rfl
@[simp] theorem putReg_draws : (s.putReg n v b).draws = s.draws + 2 := rfl
@[simp] theorem putReg_extData : (s.putReg n v b).extData = s.extData := rfl
@[simp] theorem putReg_schedule : (s.putReg n v b).schedule = s.schedule := rfl

/-- The register written holds the value, a fresh draw for its RES0 positions, and the value it had among the older ones.
(Written with `n.val`, the form simp brings an index of type Fin to.) -/
@[simp] theorem putReg_evr_same :
    (s.putReg n v b).evr[n.val] =
      { value := v, res0 := Config.freeWord s.draws, programmed := b,
        stale := s.evr[n.val].value :: s.evr[n.val].stale } := by
  simp [State.putReg]

/-- The other registers stay. -/
theorem putReg_evr_other {m : RegIndex} (h : m ≠ n) : (s.putReg n v b).evr[m.val] = s.evr[m.val] := by
  have : n.val ≠ m.val := fun e => h (Fin.ext e.symm)
  simp [State.putReg, this]

variable (a : Answers) (i : Inputs)

@[simp] theorem sequencerStep_cfg : (s.sequencerStep a).cfg = s.cfg := by unfold State.sequencerStep; split <;> rfl
@[simp] theorem sequencerStep_inp : (s.sequencerStep a).inp = s.inp := by unfold State.sequencerStep; split <;> rfl
@[simp] theorem sequencerStep_x : (s.sequencerStep a).x = s.x := by unfold State.sequencerStep; split <;> rfl
@[simp] theorem sequencerStep_pc : (s.sequencerStep a).pc = s.pc := by unfold State.sequencerStep; split <;> rfl
@[simp] theorem sequencerStep_evr : (s.sequencerStep a).evr = s.evr := by unfold State.sequencerStep; split <;> rfl
@[simp] theorem sequencerStep_mem : (s.sequencerStep a).mem = s.mem := by unfold State.sequencerStep; split <;> rfl
@[simp] theorem sequencerStep_extData : (s.sequencerStep a).extData = s.extData := by
  unfold State.sequencerStep; split <;> rfl
@[simp] theorem sequencerStep_schedule : (s.sequencerStep a).schedule = s.schedule := by
  unfold State.sequencerStep; split <;> rfl

@[simp] theorem seqHavoc_cfg : s.seqHavoc.cfg = s.cfg := by unfold State.seqHavoc; split <;> rfl
@[simp] theorem seqHavoc_inp : s.seqHavoc.inp = s.inp := by unfold State.seqHavoc; split <;> rfl
@[simp] theorem seqHavoc_x : s.seqHavoc.x = s.x := by unfold State.seqHavoc; split <;> rfl
@[simp] theorem seqHavoc_pc : s.seqHavoc.pc = s.pc := by unfold State.seqHavoc; split <;> rfl
@[simp] theorem seqHavoc_evr : s.seqHavoc.evr = s.evr := by unfold State.seqHavoc; split <;> rfl
@[simp] theorem seqHavoc_mem : s.seqHavoc.mem = s.mem := by unfold State.seqHavoc; split <;> rfl
@[simp] theorem seqHavoc_extData : s.seqHavoc.extData = s.extData := by unfold State.seqHavoc; split <;> rfl
@[simp] theorem seqHavoc_schedule : s.seqHavoc.schedule = s.schedule := by unfold State.seqHavoc; split <;> rfl

@[simp] theorem traceUnitReset_cfg : s.traceUnitReset.cfg = s.cfg := by unfold State.traceUnitReset; split <;> rfl
@[simp] theorem traceUnitReset_inp : s.traceUnitReset.inp = s.inp := by unfold State.traceUnitReset; split <;> rfl
@[simp] theorem traceUnitReset_x : s.traceUnitReset.x = s.x := by unfold State.traceUnitReset; split <;> rfl
@[simp] theorem traceUnitReset_pc : s.traceUnitReset.pc = s.pc := by unfold State.traceUnitReset; split <;> rfl
@[simp] theorem traceUnitReset_mem : s.traceUnitReset.mem = s.mem := by unfold State.traceUnitReset; split <;> rfl
@[simp] theorem traceUnitReset_extData : s.traceUnitReset.extData = s.extData := by
  unfold State.traceUnitReset; split <;> rfl
@[simp] theorem traceUnitReset_schedule : s.traceUnitReset.schedule = s.schedule := by
  unfold State.traceUnitReset; split <;> rfl

@[simp] theorem setInputs_cfg : (s.setInputs i).cfg = s.cfg := by
  unfold State.setInputs; (repeat' split) <;> rfl
@[simp] theorem setInputs_x : (s.setInputs i).x = s.x := by
  unfold State.setInputs; (repeat' split) <;> rfl
@[simp] theorem setInputs_pc : (s.setInputs i).pc = s.pc := by
  unfold State.setInputs; (repeat' split) <;> rfl
@[simp] theorem setInputs_seqState : (s.setInputs i).seqState = s.seqState := by
  unfold State.setInputs; (repeat' split) <;> rfl
@[simp] theorem setInputs_mem : (s.setInputs i).mem = s.mem := by
  unfold State.setInputs; (repeat' split) <;> rfl
@[simp] theorem setInputs_draws : (s.setInputs i).draws = s.draws := by
  unfold State.setInputs; (repeat' split) <;> rfl
@[simp] theorem setInputs_extData : (s.setInputs i).extData = s.extData := by
  unfold State.setInputs; (repeat' split) <;> rfl
@[simp] theorem setInputs_schedule : (s.setInputs i).schedule = s.schedule := by
  unfold State.setInputs; (repeat' split) <;> rfl

end Sys2Proof.Machine
end

