-- ==== Sys2Proof/Laws/Ops.lean ====
section
/-! SUPPORT. One lemma per shared operation: what it can answer. -/

namespace Sys2Proof.Machine

/-- Register 31 reads as 0. -/
@[simp] theorem readX_31 (s : State) : s.readX 31 = 0 := by simp [State.readX]

/-- A write of register 31 changes nothing. -/
@[simp] theorem writeX_31 (s : State) (v : Word) : s.writeX 31 v = s := by simp [State.writeX]

/-- A register reads as it was written. -/
theorem readX_writeX_same (s : State) {t : Nat} (h : t < 31) (v : Word) : (s.writeX t v).readX t = v := by
  simp [State.readX, State.writeX, h]

/-- Every other register reads as before. -/
theorem readX_writeX_other (s : State) {t k : Nat} (h : k ≠ t) (v : Word) :
    (s.writeX t v).readX k = s.readX k := by
  have h' : t ≠ k := fun e => h e.symm
  by_cases ht : t < 31 <;> by_cases hk : k < 31 <;> simp [State.readX, State.writeX, ht, hk, h']

/-- Reading a general register looks at the file alone. -/
theorem readX_congr {s u : State} (h : s.x = u.x) (t : Nat) : s.readX t = u.readX t := by
  simp [State.readX, h]

/-- Reading TRCSEQEVR<n> looks at the register and at `RES0_MODE` alone. -/
theorem readReg_congr {s u : State} {n : RegIndex} (hc : s.cfg = u.cfg) (h : s.evr[n] = u.evr[n]) :
    s.readReg n = u.readReg n := by
  simp only [State.readReg, hc, h]

/-- The non-reserved bits of a read are the stored ones, under every `RES0_MODE`. -/
theorem readReg_and_fieldMask (s : State) (n : RegIndex) :
    s.readReg n &&& fieldMask = s.evr[n.val].value &&& fieldMask := by
  have hz : reservedMask &&& fieldMask = 0 := by decide
  have hor : ∀ a b : Word, (a ||| b) &&& fieldMask = (a &&& fieldMask) ||| (b &&& fieldMask) := fun a b => by
    ext i hi
    simp [Bool.and_or_distrib_right]
  unfold State.readReg
  cases s.cfg.res0Mode <;> simp [BitVec.and_assoc, hor, hz]

/-- An access that goes on was allowed. -/
theorem byAccess_next {a : Access} {r : Result} {t : State} (h : byAccess a r = .next t) :
    a = .allow ∧ r = .next t := by
  cases a with
  | allow => exact ⟨rfl, h⟩
  | undefined => cases h
  | trap el => cases h

@[simp] theorem byAccess_allow (r : Result) : byAccess .allow r = r := rfl
@[simp] theorem byAccess_undefined (r : Result) : byAccess .undefined r = .fault .undefined := rfl
@[simp] theorem byAccess_trap (el : EL) (r : Result) : byAccess (.trap el) r = .fault (.trap el 0x18) := rfl

/-- `andThen` goes on from a next state only. -/
theorem andThen_next {r : Result} {f : State → State} {t : State} (h : andThen r f = .next t) :
    ∃ u, r = .next u ∧ t = f u := by
  cases r with
  | next u => exact ⟨u, rfl, by simpa [andThen] using h.symm⟩
  | fault e => cases h
  | refused e => cases h

@[simp] theorem andThen_of_next (s : State) (f : State → State) : andThen (.next s) f = .next (f s) := rfl

/-- The pc after an instruction below the top of the address space. -/
theorem advancePc_pc {s : State} (h : s.pc.toNat + 4 < 2 ^ 64) : s.advancePc.pc = s.pc + 4 := by
  simp only [State.advancePc, if_pos h]

/-- The whole state after an instruction below the top of the address space. -/
theorem advancePc_eq {s : State} (h : s.pc.toNat + 4 < 2 ^ 64) : s.advancePc = { s with pc := s.pc + 4 } := by
  simp only [State.advancePc, if_pos h]

/-- A value passes the tests for reserved bits exactly when it has a 1 in no RES0 position. -/
theorem reservedReason_eq_none {v : Word} :
    reservedReason v = none ↔ v &&& reservedMask = 0 ∧
      (bType v && v.getLsbD 12) = false ∧ (fType v && v.getLsbD 4) = false := by
  unfold reservedReason bSel4Reserved fSel4Reserved
  repeat' split
  all_goals simp_all

/-- A write is admitted exactly when the trace unit is Idle and its value passes the tests for reserved bits. -/
theorem openReason_eq_none {idle : Bool} {v : Word} :
    openReason idle v = none ↔ idle = true ∧ reservedReason v = none := by
  cases idle <;> simp [openReason]

/-- What the admission of a write says of the trace unit and of the value's bits. -/
theorem openReason_none {idle : Bool} {v : Word} (h : openReason idle v = none) :
    idle = true ∧ v &&& reservedMask = 0 ∧
      (bType v && v.getLsbD 12) = false ∧ (fType v && v.getLsbD 4) = false :=
  ⟨(openReason_eq_none.1 h).1, reservedReason_eq_none.1 (openReason_eq_none.1 h).2⟩

/-- While Idle the tests are those for reserved bits. -/
@[simp] theorem openReason_idle (v : Word) : openReason true v = reservedReason v := rfl

/-- While not Idle the first test fails. -/
@[simp] theorem openReason_busy (v : Word) : openReason false v = some .notIdle := rfl

@[simp] theorem byTests_none (r : Result) : byTests none r = r := rfl
@[simp] theorem byTests_some (why : OpenReason) (r : Result) : byTests (some why) r = .refused (.openWrite why) := rfl

/-- A write goes on to a next state exactly when it fails no test. -/
theorem byTests_next {why : Option OpenReason} {r : Result} {t : State} (h : byTests why r = .next t) :
    why = none ∧ r = .next t := by
  cases why with
  | none => exact ⟨rfl, h⟩
  | some w => cases h

/-- A value whose reserved bits are 0 is its non-reserved bits. -/
theorem and_fieldMask_of_reservedClear {v : Word} (h : v &&& reservedMask = 0) : v &&& fieldMask = v := by
  have hsplit : v = (v &&& fieldMask) ||| (v &&& reservedMask) := by
    have hm : fieldMask ||| reservedMask = BitVec.allOnes 64 := by decide
    rw [← BitVec.and_or_distrib_left, hm, BitVec.and_allOnes]
  rw [h] at hsplit
  simpa using hsplit.symm

/-- An admitted write stores its value. -/
theorem writeReg_admitted {s : State} {n : RegIndex} {v : Word} (h : openReason s.inp.idle v = none) :
    s.writeReg n v = .next (s.admittedWrite n v) := by
  simp [State.writeReg, (openReason_eq_none.1 h).1, (openReason_eq_none.1 h).2]

/-- Everything a write can answer with a next state. -/
theorem writeReg_next {s t : State} {n : RegIndex} {v : Word} (h : s.writeReg n v = .next t) :
    (openReason s.inp.idle v = none ∧ t = s.admittedWrite n v) ∨
    (s.cfg.openWrite = .run ∧ s.inp.idle = false ∧ reservedReason v = none ∧ t = s.busyWrite n) := by
  unfold State.writeReg at h
  split at h
  · obtain ⟨hw, ht⟩ := byTests_next h
    exact .inl ⟨hw, (Host.Outcome.next.inj ht).symm⟩
  · rename_i hn
    obtain ⟨hw, ht⟩ := byTests_next h
    refine .inr ⟨?_, by simpa using (not_or.1 hn).1, hw, (Host.Outcome.next.inj ht).symm⟩
    cases ho : s.cfg.openWrite with
    | refuse => exact absurd ho (not_or.1 hn).2
    | run => rfl

/-- Every write puts one value into one register, and moves `SeqState` only while not Idle. -/
theorem writeReg_put {s t : State} {n : RegIndex} {v : Word} (h : s.writeReg n v = .next t) :
    ∃ w b, t.evr = (s.putReg n w b).evr ∧ t.cfg = s.cfg ∧ t.inp = s.inp ∧ t.x = s.x ∧ t.pc = s.pc ∧
      t.mem = s.mem ∧ t.extData = s.extData ∧ t.schedule = s.schedule ∧ t.draws = s.draws + 2 ∧
      (s.inp.idle = true → t.seqState = s.seqState) ∧ (s.evr[n].programmed = true → b = true) := by
  rcases writeReg_next h with ⟨-, rfl⟩ | ⟨-, hi, -, rfl⟩
  · exact ⟨v, true, rfl, rfl, rfl, rfl, rfl, rfl, rfl, rfl, rfl, fun _ => rfl, fun _ => rfl⟩
  · exact ⟨_, _, rfl, rfl, rfl, rfl, rfl, rfl, rfl, rfl, rfl, fun h' => by simp [hi] at h', id⟩

end Sys2Proof.Machine
end

