-- ==== Sys2Proof/Laws/Exec.lean ====
section
/-! SUPPORT. The instructions by direction, and what each can answer with a next state. -/

namespace Sys2Proof.Machine

/-- An instruction that reads is the `MRS` of its register and operand. -/
theorem exec_read {i : Instr} (h : i.dir = .read) (s : State) : exec i s = mrs i.reg i.rt s := by
  cases i with
  | mrsTrcseqevr0 t => rfl
  | mrsTrcseqevr1 t => rfl
  | mrsTrcseqevr2 t => rfl
  | msrTrcseqevr0 t => cases h
  | msrTrcseqevr1 t => cases h
  | msrTrcseqevr2 t => cases h

/-- An instruction that writes is the `MSR` of its register and operand. -/
theorem exec_write {i : Instr} (h : i.dir = .write) (s : State) : exec i s = msr i.reg i.rt s := by
  cases i with
  | mrsTrcseqevr0 t => cases h
  | mrsTrcseqevr1 t => cases h
  | mrsTrcseqevr2 t => cases h
  | msrTrcseqevr0 t => rfl
  | msrTrcseqevr1 t => rfl
  | msrTrcseqevr2 t => rfl

/-- Every instruction is its access check, then an effect that raises no exception of its own. -/
theorem exec_access (i : Instr) (s : State) :
    exec i s = byAccess (s.access i.dir)
      (match i.dir with
        | .read => .next (s.mrsEffect i.reg i.rt)
        | .write => andThen (s.writeReg i.reg (s.readX i.rt)) State.advancePc) := by
  cases i <;> rfl

/-- A completed `MRS` was allowed and had its effect. -/
theorem mrs_next {n : RegIndex} {k : Nat} {s t : State} (h : mrs n k s = .next t) :
    s.access .read = .allow ∧ t = s.mrsEffect n k := by
  obtain ⟨ha, he⟩ := byAccess_next h
  exact ⟨ha, (Host.Outcome.next.inj he).symm⟩

/-- A completed `MSR` was allowed and put one value into its register. -/
theorem msr_next {n : RegIndex} {k : Nat} {s t : State} (h : msr n k s = .next t) :
    s.access .write = .allow ∧ ∃ u, s.writeReg n (s.readX k) = .next u ∧ t = u.advancePc := by
  obtain ⟨ha, he⟩ := byAccess_next h
  exact ⟨ha, andThen_next he⟩

/-- A completed `MSR` whose write is admitted has that write's effect. -/
theorem msr_admitted {n : RegIndex} {k : Nat} {s t : State} (h : msr n k s = .next t)
    (ho : openReason s.inp.idle (s.readX k) = none) :
    t = (s.admittedWrite n (s.readX k)).advancePc := by
  obtain ⟨-, u, hu, rfl⟩ := msr_next h
  rw [writeReg_admitted ho] at hu
  rw [← Host.Outcome.next.inj hu]

end Sys2Proof.Machine
end

