-- ==== Sys2Proof/Laws/Memory.lean ====
section
/-! SUPPORT. The laws of memory: a read after a write, the canonical form, and the fetch of a word put where it is fetched. -/

namespace Sys2Proof.Machine

/-- A read at the address written gives the byte written. -/
@[simp] theorem memory_read_write_same (m : List Host.Cell) (a : Nat) (v : Byte) :
    Memory.read (Memory.write m a v) a = some v := by
  induction m with
  | nil => simp [Memory.write, Memory.read]
  | cons c rest ih =>
    obtain ⟨b, u⟩ := c
    simp only [Memory.write]
    split
    · simp [Memory.read]
    · split
      · simp [Memory.read]
      · rename_i h1 h2
        have : b ≠ a := fun e => h2 e.symm
        simp [Memory.read, this, ih]

/-- A read anywhere else is unchanged. -/
theorem memory_read_write_other (m : List Host.Cell) {a c : Nat} (v : Byte) (h : c ≠ a) :
    Memory.read (Memory.write m a v) c = Memory.read m c := by
  have h' : a ≠ c := fun e => h e.symm
  induction m with
  | nil => simp [Memory.write, Memory.read, h']
  | cons d rest ih =>
    obtain ⟨b, u⟩ := d
    simp only [Memory.write]
    split
    · simp [Memory.read, h']
    · split
      · rename_i h1 h2
        subst h2
        simp [Memory.read, h']
      · simp [Memory.read, ih]

/-- Every cell of a written memory is the written one or was there before. -/
theorem memory_mem_write {m : List Host.Cell} {a : Nat} {v : Byte} {c : Host.Cell}
    (h : c ∈ Memory.write m a v) : c = (a, v) ∨ c ∈ m := by
  induction m with
  | nil => simpa [Memory.write] using h
  | cons d rest ih =>
    obtain ⟨b, u⟩ := d
    simp only [Memory.write] at h
    split at h
    · simpa using h
    · split at h
      · rcases List.mem_cons.1 h with h | h
        · exact .inl h
        · exact .inr (List.mem_cons_of_mem _ h)
      · rcases List.mem_cons.1 h with h | h
        · exact .inr (h ▸ List.mem_cons_self)
        · exact (ih h).imp id (List.mem_cons_of_mem _)

/-- A write within the address space keeps the canonical form. -/
theorem memory_wf_write {m : List Host.Cell} {a : Nat} (v : Byte) (ha : a < 2 ^ 64)
    (h : Memory.wf m) : Memory.wf (Memory.write m a v) := by
  refine ⟨?_, fun c hc => (memory_mem_write hc).elim (fun e => e ▸ ha) (h.2 c)⟩
  have hp := h.1
  clear h
  induction m with
  | nil => simp [Memory.write]
  | cons d rest ih =>
    obtain ⟨b, u⟩ := d
    obtain ⟨hb, hrest⟩ := List.pairwise_cons.1 hp
    simp only [Memory.write]
    split
    · rename_i hlt
      refine List.pairwise_cons.2 ⟨fun c hc => ?_, hp⟩
      rcases List.mem_cons.1 hc with hc | hc
      · simpa [hc] using hlt
      · exact Nat.lt_trans hlt (hb c hc)
    · split
      · rename_i h1 h2
        subst h2
        exact List.pairwise_cons.2 ⟨hb, hrest⟩
      · rename_i h1 h2
        refine List.pairwise_cons.2 ⟨fun c hc => ?_, ih hrest⟩
        rcases memory_mem_write hc with hc | hc
        · subst hc
          show b < a
          omega
        · exact hb c hc

/-- So does a write of several bytes. -/
theorem memory_wf_writeBytes {bs : List Byte} : ∀ {m : List Host.Cell} {a : Nat}, a + bs.length ≤ 2 ^ 64 →
    Memory.wf m → Memory.wf (Memory.writeBytes m a bs) := by
  induction bs with
  | nil => exact fun _ h => h
  | cons b rest ih =>
    intro m a ha h
    simp only [List.length_cons] at ha
    exact ih (by omega) (memory_wf_write b (by omega) h)

/-- The word at an address where four bytes were just put. -/
theorem memory_readWordBytes_writeBytes (m : List Host.Cell) (a : Nat) (b0 b1 b2 b3 : Byte) :
    Memory.readWordBytes (Memory.writeBytes m a [b0, b1, b2, b3]) a = some [b0, b1, b2, b3] := by
  have e1 : Memory.read (Memory.writeBytes m a [b0, b1, b2, b3]) a = some b0 := by
    simp only [Memory.writeBytes]
    rw [memory_read_write_other _ _ (by omega), memory_read_write_other _ _ (by omega),
      memory_read_write_other _ _ (by omega), memory_read_write_same]
  have e2 : Memory.read (Memory.writeBytes m a [b0, b1, b2, b3]) (a + 1) = some b1 := by
    simp only [Memory.writeBytes]
    rw [memory_read_write_other _ _ (by omega), memory_read_write_other _ _ (by omega), memory_read_write_same]
  have e3 : Memory.read (Memory.writeBytes m a [b0, b1, b2, b3]) (a + 2) = some b2 := by
    simp only [Memory.writeBytes]
    rw [memory_read_write_other _ _ (by omega), memory_read_write_same]
  have e4 : Memory.read (Memory.writeBytes m a [b0, b1, b2, b3]) (a + 3) = some b3 := by
    simp only [Memory.writeBytes]
    rw [memory_read_write_same]
  simp only [Memory.readWordBytes, e1, e2, e3, e4]

/-- The fetch of four bytes listed at an aligned pc. -/
theorem fetch_of_listed {s : State} {bs : List Byte} (ha : s.pc.toNat % 4 = 0)
    (h : Memory.readWordBytes s.mem s.pc.toNat = some bs) : s.fetch = .ok bs := by
  simp [State.fetch, ha, h]

end Sys2Proof.Machine
end

