-- ==== Sys2Proof/Laws/PerInstr.lean ====
section
/-! SUPPORT. One lemma per constructor of the family `TableRow`: the word of a well-formed instruction is the `match` of its row of
spec/opcode_table.json under the row's `mask`, and its low five bits are the operand. -/

namespace Sys2Proof.Laws.TableRow

/-- The `match` of the row of an instruction. -/
def rowMatch : Instr → InstrWord
  | .mrsTrcseqevr0 _ => 0xD5310080
  | .mrsTrcseqevr1 _ => 0xD5310180
  | .mrsTrcseqevr2 _ => 0xD5310280
  | .msrTrcseqevr0 _ => 0xD5110080
  | .msrTrcseqevr1 _ => 0xD5110180
  | .msrTrcseqevr2 _ => 0xD5110280

/-- The word is the row's `match` under the mask 0xFFFFFFE0, and its bits [4:0] are `t`. -/
def Statement (i : Instr) : Prop :=
  i.WellFormed → encodeWord i &&& 0xFFFFFFE0 = rowMatch i ∧ ((encodeWord i).extractLsb' 0 5).toNat = i.rt

theorem mrsTrcseqevr0 (t : Nat) : Statement (.mrsTrcseqevr0 t) := by
  intro h
  have h : t < 32 := h
  interval_cases t <;> decide

theorem mrsTrcseqevr1 (t : Nat) : Statement (.mrsTrcseqevr1 t) := by
  intro h
  have h : t < 32 := h
  interval_cases t <;> decide

theorem mrsTrcseqevr2 (t : Nat) : Statement (.mrsTrcseqevr2 t) := by
  intro h
  have h : t < 32 := h
  interval_cases t <;> decide

theorem msrTrcseqevr0 (t : Nat) : Statement (.msrTrcseqevr0 t) := by
  intro h
  have h : t < 32 := h
  interval_cases t <;> decide

theorem msrTrcseqevr1 (t : Nat) : Statement (.msrTrcseqevr1 t) := by
  intro h
  have h : t < 32 := h
  interval_cases t <;> decide

theorem msrTrcseqevr2 (t : Nat) : Statement (.msrTrcseqevr2 t) := by
  intro h
  have h : t < 32 := h
  interval_cases t <;> decide

end Sys2Proof.Laws.TableRow
end

