-- ==== Sys2Proof/Laws/Step.lean ====
section
/-! SUPPORT. What one step can do: it is one agent's move, and each move is one operation. -/

namespace Sys2Proof.Machine

/-- The move a state takes next. -/
def State.nextMove (s : State) : Move :=
  match s.schedule with
  | [] => .pe
  | m :: _ => m

/-- The state the next move starts from: the same with that move taken off the schedule. -/
def State.popMove (s : State) : State :=
  { s with schedule := s.schedule.tail }

/-- One step is the next move. -/
theorem step_eq_runMove (s : State) : step s = s.popMove.runMove s.nextMove := by
  cases s with
  | mk cfg inp x pc evr seqState mem draws extData schedule =>
    cases schedule <;> rfl

/-- A completed PE step ran a decoded instruction. -/
theorem peStep_next {s t : State} (h : s.peStep = .next t) :
    ∃ bytes i rest, s.fetch = .ok bytes ∧ decode bytes = .instr i rest ∧ exec i s = .next t := by
  unfold State.peStep at h
  split at h
  · cases h
  · rename_i bytes hb
    split at h
    · rename_i i rest hd
      exact ⟨bytes, i, rest, hb, hd, h⟩
    · cases h

/-- A completed external read changed `extData` alone. -/
theorem extReadStep_next {s t : State} {addr : Word} {size : Nat} (h : s.extReadStep addr size = .next t) :
    ∃ d, t = { s with extData := d } := by
  unfold State.extReadStep at h
  split at h
  · exact ⟨s.extData, (Host.Outcome.next.inj h).symm⟩
  · split at h
    · cases h
    · exact ⟨_, (Host.Outcome.next.inj h).symm⟩

/-- A completed external write is no step, or the write of four bytes to the register whose window they reach. -/
theorem extWriteStep_next {s t : State} {addr : Word} {bytes : List Byte}
    (h : s.extWriteStep addr bytes = .next t) :
    t = s ∨ ∃ n b0 b1 b2 b3, bytes = [b0, b1, b2, b3] ∧ s.cfg.externalAgent = .free ∧
      s.extTarget addr 4 = .ok n ∧ s.extWrite n (extWordOfBytes s.cfg.extBigEndian b0 b1 b2 b3) = .next t := by
  unfold State.extWriteStep at h
  split at h
  · exact .inl (Host.Outcome.next.inj h).symm
  · rename_i hfree
    split at h
    · cases h
    · rename_i n b0 b1 b2 b3 hn
      exact .inr ⟨n, b0, b1, b2, b3, rfl, hfree, by simpa using hn, h⟩
    · cases h

end Sys2Proof.Machine
end

