-- ==== Sys2Proof/Tests/Slice0.lean ====
section
/-! SUPPORT. Tests. Expected results come from spec/95_test_vectors.md, whose ids stand in the comments, or from the rule named;
words are written out from the encoding of 30_encoding.md R34 to R36. Then one witness for the hypotheses of each statement. -/

namespace Sys2Proof.Tests

open Sys2Proof.Machine

/-! ### Well-formedness, decoding and encoding -/

/-- R37: `t` is at most 31. -/
theorem test_wellFormed_refuses_rt_32 : ¬ (Instr.mrsTrcseqevr0 32).WellFormed ∧ (Instr.mrsTrcseqevr0 31).WellFormed := by decide

/-- The words of E1 and E7, bit by bit: 1101010100, L, op0, op1, CRn, CRm, op2, Rt. -/
theorem test_decode_n0 :
    decodeWord 0b11010101001100010000000010000000#32 = .instr (.mrsTrcseqevr0 0) ∧
    decodeWord 0b11010101000100010000000010000001#32 = .instr (.msrTrcseqevr0 1) := by decide

/-- E3 and E9. -/
theorem test_decode_n1 :
    decodeWord 0b11010101001100010000000110000101#32 = .instr (.mrsTrcseqevr1 5) ∧
    decodeWord 0b11010101000100010000000110000011#32 = .instr (.msrTrcseqevr1 3) := by decide

/-- E5 and E10. -/
theorem test_decode_n2 :
    decodeWord 0b11010101001100010000001010011110#32 = .instr (.mrsTrcseqevr2 30) ∧
    decodeWord 0b11010101000100010000001010000100#32 = .instr (.msrTrcseqevr2 4) := by decide

/-- E12, another System register tuple (op2 = 0b101), another instruction (NOP), too few bytes (R38). -/
theorem test_decode_rejects_by_name :
    decodeWord 0xD5310380 = .rejected .crm3 ∧ decodeWord 0xD5110380 = .rejected .crm3 ∧
    decodeWord 0xD53100A0 = .rejected .otherRegister ∧ decodeWord 0xD503201F = .rejected .otherInstruction ∧
    decode [0x80, 0x00, 0x31] = .rejected .short := by decide

/-- The byte images of E4, E11 and E2. -/
theorem test_encode_bytes :
    encode (.mrsTrcseqevr2 9) = [0x89, 0x02, 0x31, 0xD5] ∧ encode (.msrTrcseqevr1 31) = [0x9F, 0x01, 0x11, 0xD5] ∧
    decode [0x82, 0x00, 0x31, 0xD5, 0xFF] = .instr (.mrsTrcseqevr0 2) [0xFF] := by decide

/-- The opcode table's words, as the host gives them. -/
theorem test_decodeTableWord :
    decodeTableWord 32 0xD5310280 = some (.mrsTrcseqevr2 0) ∧ decodeTableWord 32 0xD5110180 = some (.msrTrcseqevr1 0) := by
  decide

/-- The assembler forms of E6 and E8, and the generic name (R39). -/
theorem test_asm :
    asm (.mrsTrcseqevr1 31) = "MRS XZR, TRCSEQEVR1" ∧ asm (.msrTrcseqevr0 1) = "MSR TRCSEQEVR0, X1" ∧
    asmGeneric (.mrsTrcseqevr2 9) = "MRS X9, S2_1_C0_C2_4" := by decide

/-! ### Fields -/

/-- V8, V4, V7 and V9: the fields, and `pack` of them. -/
theorem test_fields :
    (bType 0x8285, bSel 0x8285, fType 0x8285, fSel 0x8285) = (true, 2#5, true, 5#5) ∧
    (bType 0x1406, bSel 0x1406, fType 0x1406, fSel 0x1406) = (false, 20#5, false, 6#5) ∧
    pack true 2 true 5 = 0x8285 ∧ pack false 20 false 6 = 0x1406 ∧
    selectorIndex (fSel 0x1F1F) = 31 ∧ pairIndex (bSel 0x8F8F) = 15 := by decide

/-- The masks of R7, and Q21: `SEL[4]` takes no part in a pair. -/
theorem test_masks : fieldMask ^^^ reservedMask = BitVec.allOnes 64 ∧ pairIndex 0b10010#5 = 2 := by decide

/-- V1, V7, V9, V13 and V16 are admitted writes; V14, V18 to V20, V22 to V24 are not. -/
theorem test_admitted_writes :
    ([0x0000, 0x1F1F, 0x8F8F, 0x8080, 0x1010].map (openReason true) = [none, none, none, none, none]) ∧
    ([0x9090, 0x10000, 0x8000000000000302, 0x2302, 0x0322, 0x0342, 0x100000000].map (openReason true) =
      [some .bSel4, some .res0, some .res0, some .res0, some .res0, some .res0, some .res0]) ∧
    openReason true 0x0090 = some .fSel4 ∧ openReason false 0x9090 = some .notIdle := by decide

/-! ### The access check -/

/-- One row of the table of 95_test_vectors.md section 2.3, in its column order after `P` and `EL`. -/
def row (p : Bool) (el : EL) (h e3 sdd pri t3 t1 e2 t2 fg fr fw : Nat) : Access × Access :=
  let c : Config :=
    { resetConfig with haveFeatEte := p, haveEl3 := decide (e3 = 1), sddPriority := decide (pri = 1) }
  let i : Inputs :=
    { resetInputs with
      el := el
      halted := decide (h = 1)
      sdd := decide (sdd = 1)
      cptrEl3Tta := decide (t3 = 1)
      cpacrEl1Tta := decide (t1 = 1)
      el2Enabled := decide (e2 = 1)
      cptrEl2Tta := decide (t2 = 1)
      fgten := decide (fg = 1)
      hdfgrtrTrc := decide (fr = 1)
      hdfgwtrTrc := decide (fw = 1) }
  (accessCheck c (i.effective c) .read, accessCheck c (i.effective c) .write)

/-- A pair of equal outcomes. -/
def both (a : Access) : Access × Access := (a, a)

/-- A1 to A3. -/
theorem test_access_undefined :
    row false .el3 0 1 0 0 0 0 1 0 1 0 0 = both .undefined ∧
    row true .el0 0 1 0 0 0 0 1 0 1 0 0 = both .undefined ∧
    row true .el0 0 1 0 0 1 1 1 1 1 0 0 = both .undefined := by decide

/-- A4 to A9. -/
theorem test_access_el1_tta :
    row true .el1 0 1 0 0 0 0 1 0 1 0 0 = both .allow ∧
    row true .el1 0 1 0 0 0 1 1 0 1 0 0 = both (.trap .el1) ∧
    row true .el1 0 1 0 0 1 1 1 1 1 0 0 = both (.trap .el1) ∧
    row true .el1 0 1 0 0 0 0 1 1 1 0 0 = both (.trap .el2) ∧
    row true .el1 0 1 0 0 0 0 0 1 1 0 0 = both .allow ∧
    row true .el1 0 1 0 0 1 0 1 1 1 0 0 = both (.trap .el2) := by decide

/-- A10 to A14. -/
theorem test_access_el1_fine_grained :
    row true .el1 0 1 0 0 0 0 1 0 1 1 0 = (.trap .el2, .allow) ∧
    row true .el1 0 1 0 0 0 0 1 0 1 0 1 = (.allow, .trap .el2) ∧
    row true .el1 0 1 0 0 0 0 1 0 0 1 1 = both .allow ∧
    row true .el1 0 0 0 0 0 0 1 0 0 1 1 = both (.trap .el2) ∧
    row true .el1 0 1 0 0 0 0 0 0 1 1 1 = both .allow := by decide

/-- A15 to A24. -/
theorem test_access_el1_el3_and_halted :
    row true .el1 0 1 0 0 1 0 1 0 1 0 0 = both (.trap .el3) ∧
    row true .el1 0 0 0 0 1 0 1 0 1 0 0 = both .allow ∧
    row true .el1 1 1 1 0 1 0 1 0 1 0 0 = both .undefined ∧
    row true .el1 1 1 0 0 1 0 1 0 1 0 0 = both (.trap .el3) ∧
    row true .el1 0 1 1 0 1 0 1 0 1 0 0 = both (.trap .el3) ∧
    row true .el1 1 1 1 0 1 1 1 0 1 0 0 = both (.trap .el1) ∧
    row true .el1 1 1 1 1 1 1 1 0 1 0 0 = both .undefined ∧
    row true .el1 1 1 1 0 1 0 1 1 1 0 0 = both (.trap .el2) ∧
    row true .el1 1 1 1 1 1 0 1 1 1 0 0 = both .undefined ∧
    row true .el1 1 1 1 1 0 0 1 0 1 0 0 = both .allow := by decide

/-- A25 to A32. -/
theorem test_access_el2 :
    row true .el2 0 1 0 0 0 0 1 0 1 0 0 = both .allow ∧
    row true .el2 0 1 0 0 0 1 1 0 1 1 1 = both .allow ∧
    row true .el2 0 1 0 0 0 0 1 1 1 0 0 = both (.trap .el2) ∧
    row true .el2 0 1 0 0 1 0 1 1 1 0 0 = both (.trap .el2) ∧
    row true .el2 0 1 0 0 1 0 1 0 1 0 0 = both (.trap .el3) ∧
    row true .el2 1 1 1 0 1 0 1 0 1 0 0 = both .undefined ∧
    row true .el2 1 1 1 0 1 0 1 1 1 0 0 = both (.trap .el2) ∧
    row true .el2 1 1 1 1 1 0 1 1 1 0 0 = both .undefined := by decide

/-- A33 to A36. -/
theorem test_access_el3 :
    row true .el3 0 1 0 0 0 0 1 0 1 0 0 = both .allow ∧
    row true .el3 0 1 0 0 1 0 1 0 1 0 0 = both (.trap .el3) ∧
    row true .el3 1 1 1 1 1 0 1 0 1 0 0 = both (.trap .el3) ∧
    row true .el3 0 1 0 0 0 1 1 1 1 1 1 = both .allow := by decide

/-! ### MRS and MSR: one step each -/

/-- A4: EL1, every trap bit 0, Idle; every selector and pair implemented; `RAZ_WI`; the spec's own refusals; x1 = 0x0302 and
TRCSEQEVR0..2 as in 41_sequencer_transitions.md section 6. -/
def base : State :=
  { State.reset with
    cfg :=
      { resetConfig with
        implementedSelectors := BitVec.allOnes 32
        implementedPairs := BitVec.allOnes 16
        res0Mode := .razWi
        openWrite := .refuse }
    inp := { resetInputs with el := .el1, el2Enabled := true, fgten := true }
    x := (Vector.replicate 31 0).set 1 0x0302
    pc := 0x1000
    evr := #v[{ resetEvr with value := 0x0302 }, { resetEvr with value := 0x0504 }, { resetEvr with value := 0x1406 }] }

/-- `base` with the inputs of A5: `CPACR_EL1.TTA`. -/
def trapped : State := { base with inp := { base.inp with cpacrEl1Tta := true } }

/-- `base` while not Idle. -/
def busy : State := { base with inp := { base.inp with idle := false } }

/-- `base` with a value in x1. -/
def withX1 (v : Word) : State := base.writeX 1 v

/-- `base` where open writes run. -/
def runs (s : State) : State := { s with cfg := { s.cfg with openWrite := .run } }

/-- What a step that completes leaves. -/
def nextIs (r : Result) (p : State → Bool) : Bool :=
  match r with
  | .next s => p s
  | .fault _ => false
  | .refused _ => false

/-- The fault of a step that faults. -/
def faultIs (r : Result) (f : Fault) : Bool :=
  match r with
  | .next _ => false
  | .fault e => e == f
  | .refused _ => false

/-- The refusal of a step that refuses. -/
def refusalIs (r : Result) (f : Refusal) : Bool :=
  match r with
  | .next _ => false
  | .fault _ => false
  | .refused e => e == f

/-- M9 and M5: a read while not Idle; a trapped read. -/
theorem test_mrs0 :
    nextIs (exec (.mrsTrcseqevr0 1) busy) (fun u => u.readX 1 == 0x0302 && u.pc == 0x1004) = true ∧
    faultIs (exec (.mrsTrcseqevr0 2) trapped) (.trap .el1 0x18) = true := by decide

/-- M2 and M4: a plain read; `t` = 31. -/
theorem test_mrs1 :
    nextIs (exec (.mrsTrcseqevr1 5) base) (fun u => u.readX 5 == 0x0504 && u.evr == base.evr) = true ∧
    nextIs (exec (.mrsTrcseqevr1 31) base) (fun u => u.x == base.x && u.pc == 0x1004) = true := by decide

/-- P4, first instruction; and M15, absent. -/
theorem test_mrs2 :
    nextIs (exec (.mrsTrcseqevr2 4) base) (fun u => u.readX 4 == 0x1406) = true ∧
    faultIs (exec (.mrsTrcseqevr2 4) { base with cfg := { base.cfg with haveFeatEte := false } }) .undefined = true := by
  decide

/-- M1 (other registers and `SeqState` stay); M7. -/
theorem test_msr0 :
    nextIs (exec (.msrTrcseqevr0 1) (withX1 0x8080))
      (fun u => u.evr[0].value == 0x8080 && u.evr[0].programmed && u.evr[1] == base.evr[1] &&
        u.evr[2] == base.evr[2] && u.seqState == 0 && u.pc == 0x1004) = true ∧
    refusalIs (exec (.msrTrcseqevr0 1) busy) (.openWrite .notIdle) = true := by decide

/-- M3 (`t` = 31 writes 0); M11. -/
theorem test_msr1 :
    nextIs (exec (.msrTrcseqevr1 31) base) (fun u => u.evr[1].value == 0) = true ∧
    refusalIs (exec (.msrTrcseqevr1 1) (withX1 0x9090)) (.openWrite .bSel4) = true := by decide

/-- M8 (the check precedes the Idle test); M10. -/
theorem test_msr2 :
    faultIs (exec (.msrTrcseqevr2 0) { trapped with inp := { trapped.inp with idle := false } }) (.trap .el1 0x18) = true ∧
    refusalIs (exec (.msrTrcseqevr2 1) (withX1 0x10000)) (.openWrite .res0) = true := by decide

/-- R43: a write while not Idle runs where the model continues; R19 point 2: one of a RES0 bit is refused even there. -/
theorem test_msr_open_write_runs :
    nextIs (exec (.msrTrcseqevr2 1) (runs busy)) (fun u => !u.evr[2].programmed && u.pc == 0x1004 && u.x == base.x) = true ∧
    refusalIs (exec (.msrTrcseqevr2 1) (runs (withX1 0x10302))) (.openWrite .res0) = true := by decide

/-- P1, first instruction, placed and run by `step`; and a word out of scope. -/
theorem test_step_runs_a_placed_word :
    nextIs (step (base.withFetchWord 32 0xD5110081)) (fun u => u.evr[0].value == 0x0302 && u.pc == 0x1004) = true ∧
    refusalIs (step (base.withFetchWord 32 0xD5310380)) (.notInScope .crm3) = true ∧
    faultIs (step base) .fetchUnlisted = true := by decide

/-- The first instruction after reset runs (log 1). -/
theorem test_first_instruction_after_reset :
    nextIs (step (State.reset.withFetchWord 32 0xD5310080)) (fun u => u.pc == 4) = true ∧
    nextIs (step (State.reset.withFetchWord 32 0xD5110280)) (fun u => u.evr[2].programmed) = true := by decide

/-! ### The Sequencer -/

/-- The state after one instant from `q`, with the selectors of a mask active and the pairs of a mask true. -/
def after (s : State) (q : Fin 4) (selectors : BitVec 32) (pairs : BitVec 16) : Fin 4 :=
  ({ s with seqState := q }.sequencerStep ⟨selectors, pairs⟩).seqState

/-- Q1 to Q11. -/
theorem test_sequencer :
    [after base 0 0 0, after base 0 0x4 0, after base 0 0x8 0, after base 0 0x50 0, after base 1 0x10 0, after base 1 0x8 0,
      after base 1 0x4 0, after base 2 0x40 0, after base 2 0x20 0, after base 3 0x100000 0, after base 3 0x40 0] =
    [0, 1, 0, 0, 2, 0, 1, 3, 1, 2, 3] := by decide

/-- `base` with `SEQ_SIMUL` fixed. -/
def simulIs (m : SeqSimul) : State := { base with cfg := { base.cfg with seqSimul := m } }

/-- Q12: a forward and a backward event together. -/
theorem test_sequencer_simultaneous :
    after (simulIs .stay) 1 0x18 0 = 1 ∧ after (simulIs .forwardWins) 1 0x18 0 = 2 ∧
    after (simulIs .backwardWins) 1 0x18 0 = 0 := by decide

/-- TRCSEQEVR1 = 0x8285: pair 2 backward, pair 5 forward. -/
def pairs : State :=
  { base with
    evr := #v[{ resetEvr with value := 0x0302 }, { resetEvr with value := 0x8285 }, { resetEvr with value := 0x1406 }] }

/-- Q13, Q14 and Q15. -/
theorem test_sequencer_pairs :
    after pairs 1 0 0x20 = 2 ∧ after pairs 2 0 0x4 = 1 ∧ after pairs 1 0x20 0 = 1 := by decide

/-- Q18: Paused holds even an event that would fire. -/
theorem test_sequencer_paused :
    after { base with cfg := { base.cfg with pausedHolds := true }, inp := { base.inp with paused := true } } 0 0x4 0 = 0 := by
  decide

/-! ### The external view -/

/-- X4, the write: 0x00008285 to TRCSEQEVR0, and then what an `MRS` of it would read. -/
theorem test_external_write :
    nextIs (base.runMove (.extWrite 0x100 [0x85, 0x82, 0x00, 0x00]))
      (fun u => u.readReg 0 == 0x8285 && u.evr[0].programmed) = true := by decide

/-- X3 with the bytes of X6; X5; another width. -/
theorem test_external_access :
    nextIs (base.runMove (.extRead 0x108 4)) (fun u => u.extData == [0x06, 0x14, 0x00, 0x00]) = true ∧
    refusalIs (base.runMove (.extWrite 0x100 [0x00, 0x00, 0x01, 0x00])) (.openWrite .res0) = true ∧
    refusalIs (base.runMove (.extRead 0x108 8)) .extWidth = true := by decide

/-- X1: no register is programmed after a Trace unit reset. -/
theorem test_trace_unit_reset :
    nextIs (step { base with schedule := [.traceUnitReset] })
      (fun u => !u.evr[0].programmed && !u.evr[1].programmed && !u.evr[2].programmed && u.schedule == []) = true := by decide

/-- R4: the environment changes an input `X[t]`, which an `MSR` then writes; t = 31 stays 0 (R23). -/
theorem test_environment_changes_a_register :
    nextIs (step { base with schedule := [.setX 1 0x0504] }) (fun u => u.readX 1 == 0x0504 && u.pc == base.pc && u.evr == base.evr) = true ∧
    nextIs (step { base with schedule := [.setX 31 0x0504] }) (fun u => u.readX 31 == 0 && u.x == base.x) = true := by decide

/-- R44: with a selector that uses the Sequencer, a machine none of whose registers is programmed does not meet the premise. -/
theorem test_launch_premise :
    { base with inp := { base.inp with trcrsctlr := [⟨0b0010, 0b0001⟩] } }.sequencerUsed = true ∧
    base.sequencerUsed = false := by decide

/-! ### One witness for the hypotheses of each statement: they can be met together, clause by clause -/

/-- `base` at a pc. -/
def atPc (s : State) (pc : Word) : State := { s with pc := pc }

/-- `base` with the registers absent. -/
def absent : State := { base with cfg := { base.cfg with haveFeatEte := false } }

/-- `base` under a `RES0_MODE`. -/
def modeIs (s : State) (m : Res0Mode) : State := { s with cfg := { s.cfg with res0Mode := m } }

/-- `base` with a word placed where the next step fetches it. -/
def placed (w : Nat) : State := base.withFetchWord 32 w

/-- A state with steps of other agents next. -/
def next (s : State) (m : List Move) : State := { s with schedule := m }

theorem witness_DecodeOfEncodeIsTheInstruction :
    (Instr.mrsTrcseqevr2 31).WellFormed ∧ (Instr.msrTrcseqevr0 0).WellFormed := by decide

theorem witness_DecodedWordIsItsEncoding : decodeWord 0xD531029F = .instr (.mrsTrcseqevr2 31) := by decide

theorem witness_OperandsAreRtAndCrm : decodeWord 0xD511029F = .instr (.msrTrcseqevr2 31) := by decide

/-- The hypotheses of a fetch of a word. -/
def Fetches (s : State) (w : InstrWord) : Prop :=
  s.schedule = [] ∧ s.pc.toNat % 4 = 0 ∧ Memory.readWordBytes s.mem s.pc.toNat = some (bytesOfWord w)

/-- A word in scope, the tuple with CRm = 0b0011 in both directions, and NOP. -/
theorem witness_WordsInAndOutOfScope_fetched :
    Fetches (placed 0xD531009F) 0xD531009F ∧ Fetches (placed 0xD531039F) 0xD531039F ∧
    Fetches (placed 0xD5110380) 0xD5110380 ∧ Fetches (placed 0xD503201F) 0xD503201F :=
  ⟨⟨rfl, by decide, by decide⟩, ⟨rfl, by decide, by decide⟩, ⟨rfl, by decide, by decide⟩, ⟨rfl, by decide, by decide⟩⟩

/-- NOP is no instruction's word: every word of one has 0xD531 or 0xD511 in its upper half. -/
theorem nop_is_not_encoded (i : Instr) (hi : i.WellFormed) : 0xD503201F#32 ≠ encodeWord i := by
  intro h
  have hm : encodeWord i &&& 0xFFFFFFE0 = Laws.TableRow.rowMatch i := by
    cases i with
    | mrsTrcseqevr0 t => exact (Laws.TableRow.mrsTrcseqevr0 t hi).1
    | mrsTrcseqevr1 t => exact (Laws.TableRow.mrsTrcseqevr1 t hi).1
    | mrsTrcseqevr2 t => exact (Laws.TableRow.mrsTrcseqevr2 t hi).1
    | msrTrcseqevr0 t => exact (Laws.TableRow.msrTrcseqevr0 t hi).1
    | msrTrcseqevr1 t => exact (Laws.TableRow.msrTrcseqevr1 t hi).1
    | msrTrcseqevr2 t => exact (Laws.TableRow.msrTrcseqevr2 t hi).1
  rw [← h] at hm
  cases i <;> simp [Laws.TableRow.rowMatch] at hm

/-- Those words fall under each clause, the registers present or absent, with nothing scheduled or the PE next. -/
theorem witness_WordsInAndOutOfScope :
    (placed 0xD531039F).schedule = [] ∧
    (next (placed 0xD531039F) [.pe, .seqHavoc]).schedule = .pe :: [.seqHavoc] ∧
    placed 0xD531039F = { next (placed 0xD531039F) [.pe] with schedule := [] } ∧
    0xD531009F#32 = encodeWord (.mrsTrcseqevr0 31) ∧ (Instr.mrsTrcseqevr0 31).WellFormed ∧
    base.cfg.present = true ∧ absent.cfg.present = false ∧
    0xD531039F#32 &&& 0xFFFFFFE0#32 = 0xD5310380#32 ∧ 0xD5110380#32 &&& 0xFFFFFFE0#32 = 0xD5110380#32 ∧
    (∀ i : Instr, i.WellFormed → 0xD503201F#32 ≠ encodeWord i) :=
  ⟨rfl, rfl, rfl, by decide, by decide, by decide, by decide, by decide, by decide, nop_is_not_encoded⟩

theorem witness_StepRunsTheDecodedInstruction :
    ∃ bytes, (placed 0xD5110081).pc.toNat % 4 = 0 ∧
      Memory.readWordBytes (placed 0xD5110081).mem (placed 0xD5110081).pc.toNat = some bytes ∧
      decode bytes = .instr (.msrTrcseqevr0 1) [] ∧ (placed 0xD5110081).schedule = [] ∧
      (next (placed 0xD5110081) [.pe, .seqHavoc]).schedule = .pe :: [.seqHavoc] ∧
      (next base [.seqHavoc, .pe]).schedule = .seqHavoc :: [.pe] :=
  ⟨[0x81, 0x00, 0x11, 0xD5], by decide, by decide, by decide, rfl, rfl, rfl⟩

theorem witness_PlacedInstructionIsRunNext :
    (Instr.msrTrcseqevr2 31).WellFormed ∧ (Instr.mrsTrcseqevr0 0).WellFormed := by decide

/-- One level each, at EL1 to EL3 with an access allowed and with one that is not. -/
theorem witness_LevelsThatMayAccess :
    resetConfig.present = true ∧
    (∃ i : Inputs, i.el = .el0) ∧
    (∃ i j : Inputs, i.el = .el1 ∧ accessCheck resetConfig i .read = .allow ∧
      j.el = .el1 ∧ accessCheck resetConfig j .read ≠ .allow) ∧
    (∃ i j : Inputs, i.el = .el2 ∧ accessCheck resetConfig i .read = .allow ∧
      j.el = .el2 ∧ accessCheck resetConfig j .read ≠ .allow) ∧
    (∃ i j : Inputs, i.el = .el3 ∧ accessCheck resetConfig i .read = .allow ∧
      j.el = .el3 ∧ accessCheck resetConfig j .read ≠ .allow) :=
  ⟨by decide, ⟨{ resetInputs with el := .el0 }, rfl⟩,
    ⟨{ resetInputs with el := .el1 }, { resetInputs with el := .el1, cpacrEl1Tta := true },
      by decide, by decide, by decide, by decide⟩,
    ⟨{ resetInputs with el := .el2 }, { resetInputs with el := .el2, cptrEl2Tta := true },
      by decide, by decide, by decide, by decide⟩,
    ⟨resetInputs, { resetInputs with cptrEl3Tta := true }, by decide, by decide, by decide, by decide⟩⟩

/-- A halted PE at EL1 with `EDSCR.SDD` and `CPTR_EL3.TTA`, the bits of A17. -/
def haltedAt (el : EL) : Inputs :=
  { resetInputs with el := el, halted := true, sdd := true, cptrEl3Tta := true }

/-- Every clause: not all four hold; all four at EL1 and EL2, with a trap to EL3 to replace, with the priority, and without it
under an earlier trap; EL3; `SDD` of a PE that is not halted, and of one without `CPTR_EL3.TTA`. -/
theorem witness_HaltedMattersInOneWay :
    (∃ i : Inputs, i.halted = true ∧
      ¬(i.halted = true ∧ resetConfig.haveEl3 = true ∧ i.sdd = true ∧ i.cptrEl3Tta = true)) ∧
    (∃ i : Inputs, i.halted = true ∧ resetConfig.haveEl3 = true ∧ i.sdd = true ∧ i.cptrEl3Tta = true ∧ i.el = .el1 ∧
      accessCheck resetConfig { i with halted := false } .read = .trap .el3) ∧
    (∃ i : Inputs, i.halted = true ∧ resetConfig.haveEl3 = true ∧ i.sdd = true ∧ i.cptrEl3Tta = true ∧ i.el = .el2 ∧
      resetConfig.sddPriority = false ∧ accessCheck resetConfig { i with halted := false } .write ≠ .trap .el3) ∧
    (∃ c : Config, c.sddPriority = true ∧ c.haveEl3 = true) ∧
    (∃ i : Inputs, i.halted = true ∧ i.el = .el3) ∧
    (∃ i : Inputs, i.el = .el1 ∧ i.cptrEl3Tta = true ∧
      ¬(i.halted = true ∧ resetConfig.haveEl3 = true ∧ i.cptrEl3Tta = true ∧ (i.el = .el1 ∨ i.el = .el2))) ∧
    (∃ i : Inputs, i.el = .el2 ∧ i.halted = true ∧
      ¬(i.halted = true ∧ resetConfig.haveEl3 = true ∧ i.cptrEl3Tta = true ∧ (i.el = .el1 ∨ i.el = .el2))) :=
  ⟨⟨{ haltedAt .el1 with sdd := false }, by decide⟩, ⟨haltedAt .el1, by decide⟩,
    ⟨{ haltedAt .el2 with cptrEl2Tta := true }, by decide⟩, ⟨{ resetConfig with sddPriority := true }, by decide⟩,
    ⟨haltedAt .el3, by decide⟩, ⟨{ haltedAt .el1 with halted := false }, by decide⟩,
    ⟨{ haltedAt .el2 with cptrEl3Tta := false }, by decide⟩⟩

theorem witness_OnlyFineGrainedBitsTellReadFromWrite :
    ∃ (c : Config) (i : Inputs), accessCheck c i .read ≠ accessCheck c i .write :=
  ⟨base.cfg, { base.inp with hdfgrtrTrc := true }, by decide⟩

/-- Each absent register; inputs that agree where it counts (all the same, or with what an absent EL3 holds taken as 0). -/
theorem witness_AbsentControlBitsAreIgnored :
    (∃ s u v : State, s.cfg.haveEl3 = false ∧ u.cfg.haveEl2 = false ∧ v.cfg.haveFgt = false ∧
      s.access .read = .allow ∧ u.access .read = .allow ∧ v.access .read = .allow) ∧
    (base.cfg.haveEl2 = true ∧ base.cfg.haveEl3 = true ∧ base.cfg.haveFgt = true) ∧
    (∃ (s : State) (j : Inputs), s.cfg.haveEl3 = false ∧ s.inp.cptrEl3Tta = true ∧ j.el = s.inp.el ∧
      j.halted = s.inp.halted ∧ j.sdd = s.inp.sdd ∧ j.cpacrEl1Tta = s.inp.cpacrEl1Tta ∧
      j.cptrEl3Tta = (if s.cfg.haveEl3 then s.inp.cptrEl3Tta else false) ∧
      j.cptrEl2Tta = (if s.cfg.haveEl2 then s.inp.cptrEl2Tta else false) ∧
      j.el2Enabled = (if s.cfg.haveEl2 then s.inp.el2Enabled else false) ∧
      j.fgten = (if s.cfg.haveEl3 ∧ s.cfg.haveFgt then s.inp.fgten else false) ∧
      j.hdfgrtrTrc = (if s.cfg.haveEl2 ∧ s.cfg.haveFgt then s.inp.hdfgrtrTrc else false) ∧
      j.hdfgwtrTrc = (if s.cfg.haveEl2 ∧ s.cfg.haveFgt then s.inp.hdfgwtrTrc else false)) :=
  ⟨⟨{ base with cfg := { base.cfg with haveEl3 := false } }, { base with cfg := { base.cfg with haveEl2 := false } },
    { base with cfg := { base.cfg with haveFgt := false } }, by decide⟩, by decide,
    { base with cfg := { base.cfg with haveEl3 := false }, inp := { base.inp with cptrEl3Tta := true } },
    { base.inp with fgten := false }, by decide⟩

/-- An allowed access at the last pc that `pc + 4` is stated for; the others at the top of the address space; and `t` = 31. -/
theorem witness_MrsFollowsItsPseudocode :
    (Instr.mrsTrcseqevr1 31).dir = .read ∧ (Instr.mrsTrcseqevr1 31).WellFormed ∧ (Instr.mrsTrcseqevr0 30).dir = .read ∧
    (atPc base 0xFFFFFFFFFFFFFFF8).pc.toNat + 4 < 2 ^ 64 ∧
    (atPc base 0xFFFFFFFFFFFFFFF8).access .read = .allow ∧
    (atPc absent 0xFFFFFFFFFFFFFFFC).access .read = .undefined ∧
    (atPc trapped 0xFFFFFFFFFFFFFFFC).access .read = .trap .el1 := by decide

/-- Each outcome of the check, and a write while not Idle. -/
theorem witness_MsrFollowsItsPseudocode :
    (Instr.msrTrcseqevr2 1).dir = .write ∧ (Instr.msrTrcseqevr2 1).WellFormed ∧
    (atPc base 0xFFFFFFFFFFFFFFF8).pc.toNat + 4 < 2 ^ 64 ∧ absent.access .write = .undefined ∧ trapped.access .write = .trap .el1 ∧
    (busy.access .write = .allow ∧ busy.inp.idle = false ∧ busy.cfg.openWrite = .refuse) ∧
    (base.access .write = .allow ∧ base.inp.idle = true ∧ base.cfg.openWrite = .refuse) := by decide

/-- A value that fails each test (a RES0 bit, `B_SEL[4]`, `F_SEL[4]` alone), and one that fails none. -/
theorem witness_MsrFollowsItsPseudocode_values :
    (withX1 0x0020).readX 1 &&& 0xFFFFFFFFFFFF6060#64 ≠ 0 ∧
    (∀ v ∈ [0x9090#64, 0x1090#64, 0x8F8F#64], (withX1 v).readX 1 = v ∧ v &&& 0xFFFFFFFFFFFF6060#64 = 0) ∧
    ((0x9090#64).getLsbD 15 = true ∧ (0x9090#64).getLsbD 12 = true) ∧
    (¬((0x1090#64).getLsbD 15 = true ∧ (0x1090#64).getLsbD 12 = true) ∧
      (0x1090#64).getLsbD 7 = true ∧ (0x1090#64).getLsbD 4 = true) ∧
    (¬((0x8F8F#64).getLsbD 15 = true ∧ (0x8F8F#64).getLsbD 12 = true) ∧
      ¬((0x8F8F#64).getLsbD 7 = true ∧ (0x8F8F#64).getLsbD 4 = true)) :=
  ⟨by decide, by simp [withX1, State.readX, State.writeX], by decide, by decide, by decide⟩

/-- While not Idle, below the top of memory and at it: a value with no RES0 bit set, and one with `F_SEL[4]` set beside `F_TYPE`. -/
theorem witness_OpenWritesRunWhenConfigured :
    (Instr.msrTrcseqevr1 1).dir = .write ∧ (runs busy).access .write = .allow ∧ (runs busy).cfg.openWrite = .run ∧
    (runs busy).inp.idle = false ∧ reservedReason ((runs busy).readX 1) = none ∧
    reservedReason (((runs busy).writeX 1 0x0090).readX 1) = some .fSel4 ∧
    (runs busy).cfg.res0Mode = .razWi ∧ (runs busy).pc.toNat + 4 < 2 ^ 64 ∧
    ¬ (atPc (runs busy) 0xFFFFFFFFFFFFFFFC).pc.toNat + 4 < 2 ^ 64 := by
  decide

theorem witness_PcIsFreeAtTheTopOfMemory :
    ¬ (atPc base 0xFFFFFFFFFFFFFFFC).pc.toNat + 4 < 2 ^ 64 ∧
    (atPc base 0xFFFFFFFFFFFFFFFC).access .read = .allow ∧ (Instr.mrsTrcseqevr0 31).dir = .read ∧
    (atPc base 0xFFFFFFFFFFFFFFFC).access .write = .allow ∧ (Instr.msrTrcseqevr0 1).dir = .write ∧
    openReason (atPc base 0xFFFFFFFFFFFFFFFC).inp.idle ((atPc base 0xFFFFFFFFFFFFFFFC).readX 1) = none := by decide

/-- The ends of the field positions and of the reserved ones; no position is both. -/
theorem witness_ReadReturnsByRes0Mode :
    fieldMask.getLsbD 0 = true ∧ fieldMask.getLsbD 15 = true ∧ reservedMask.getLsbD 5 = true ∧
    reservedMask.getLsbD 14 = true ∧ reservedMask.getLsbD 16 = true ∧ reservedMask.getLsbD 63 = true ∧
    fieldMask &&& reservedMask = 0 := by decide

theorem witness_InstructionsTouchNoMemory :
    ∃ t u, exec (.mrsTrcseqevr0 1) base = .next t ∧ exec (.msrTrcseqevr2 1) base = .next u := ⟨_, _, rfl, rfl⟩

theorem witness_MrsFrame :
    ∃ t u, exec (.mrsTrcseqevr1 30) base = .next t ∧ exec (.mrsTrcseqevr2 31) busy = .next u := ⟨_, _, rfl, rfl⟩

theorem witness_MsrFrame :
    ∃ t u, exec (.msrTrcseqevr1 1) base = .next t ∧ base.inp.idle = true ∧ base.cfg.openWrite = .refuse ∧
      exec (.msrTrcseqevr0 31) (runs busy) = .next u := ⟨_, _, rfl, rfl, rfl, rfl⟩

theorem witness_ReadAfterWriteReturnsTheValue :
    ∃ u t, (Instr.msrTrcseqevr1 1).dir = .write ∧ (Instr.mrsTrcseqevr1 30).dir = .read ∧
      openReason base.inp.idle (base.readX 1) = none ∧ exec (.msrTrcseqevr1 1) base = .next u ∧
      exec (.mrsTrcseqevr1 30) u = .next t ∧ base.cfg.res0Mode ≠ .any := ⟨_, _, rfl, rfl, by decide, rfl, rfl, by decide⟩

theorem witness_RepeatedReadsAgree :
    ∃ u t, exec (.mrsTrcseqevr2 4) (modeIs base .any) = .next u ∧ exec (.mrsTrcseqevr2 30) u = .next t :=
  ⟨_, _, rfl, rfl⟩

/-- The other way to be absent: no Sequencer states. -/
def noStates : State := { base with cfg := { base.cfg with numSeqState := 0 } }

/-- Either way to be absent; and steps that complete there. -/
theorem witness_AbsentRegistersAreInert :
    (absent.cfg.haveFeatEte && absent.cfg.numSeqState != 0#3) = false ∧
    (noStates.cfg.haveFeatEte && noStates.cfg.numSeqState != 0#3) = false ∧
    (∃ t, step (next absent [.traceUnitReset]) = .next t) ∧ (∃ t, step (next absent [.seqHavoc]) = .next t) :=
  ⟨by decide, by decide, ⟨_, rfl⟩, ⟨_, rfl⟩⟩

/-- Not Paused; Paused where that holds nothing; the last selector and pair; pair 0 with `SEL[4]` = 1; ones not implemented. -/
theorem witness_EventIsTheSelectedResource :
    ¬(base.inp.paused = true ∧ base.cfg.pausedHolds = true) ∧
    base.cfg.implementedSelectors.getLsbD (31#5).toNat = true ∧
    State.reset.cfg.implementedSelectors.getLsbD (0#5).toNat = false ∧
    (31#5).toNat % 16 ≠ 0 ∧ base.cfg.implementedPairs.getLsbD ((31#5).toNat % 16) = true ∧
    (16#5).toNat % 16 = 0 ∧ State.reset.cfg.implementedPairs.getLsbD ((1#5).toNat % 16) = false := by decide

/-- `base` in a Sequencer state. -/
def inState (q : Fin 4) : State := { base with seqState := q }

/-- A step that is not enabled; and from state 1 (TRCSEQEVR1 forward on selector 4, TRCSEQEVR0 backward on 3) each of the four
arms, the fourth under each `SEQ_SIMUL`. -/
theorem witness_SequencerStepFollowsItsArms :
    (∀ n : RegIndex, base.evr[n].stale = []) ∧ base.cfg.present = true ∧
    (base.inp.idle = true ∧ ({ base.cfg with seqIdleMoves := false } : Config).seqIdleMoves = false) ∧
    base.cfg.seqIdleMoves = true ∧
    ((inState 1).ForwardCandidate ⟨0x10, 0⟩ ∧ ¬ (inState 1).BackwardCandidate ⟨0x10, 0⟩) ∧
    ((inState 1).BackwardCandidate ⟨0x8, 0⟩ ∧ ¬ (inState 1).ForwardCandidate ⟨0x8, 0⟩) ∧
    (¬ (inState 1).ForwardCandidate ⟨0, 0⟩ ∧ ¬ (inState 1).BackwardCandidate ⟨0, 0⟩) ∧
    ((inState 1).ForwardCandidate ⟨0x18, 0⟩ ∧ (inState 1).BackwardCandidate ⟨0x18, 0⟩) ∧
    (¬ (inState 3).ForwardCandidate ⟨0xFFFFFFFF, 0xFFFF⟩) ∧
    (¬ base.BackwardCandidate ⟨0xFFFFFFFF, 0xFFFF⟩) ∧
    base.cfg.seqSimul = .any ∧ (simulIs .stay).cfg.seqSimul = .stay ∧
    (simulIs .forwardWins).cfg.seqSimul = .forwardWins ∧ (simulIs .backwardWins).cfg.seqSimul = .backwardWins := by
  simp only [State.ForwardCandidate, State.BackwardCandidate]
  decide

/-- In state 0 another TRCSEQEVR2, and another backward half of TRCSEQEVR0, meet both premises; in state 3 another TRCSEQEVR0. -/
theorem witness_OnlyCandidatesMoveTheSequencer :
    ∃ evr : Vector Evr 3, evr ≠ base.evr ∧
      (∀ n : RegIndex, n.val = base.seqState.val →
        fType (({ base with evr := evr } : State).governing n base.draws) = fType (base.governing n base.draws) ∧
        fSel (({ base with evr := evr } : State).governing n base.draws) = fSel (base.governing n base.draws)) ∧
      (∀ n : RegIndex, n.val + 1 = base.seqState.val →
        bType (({ base with evr := evr } : State).governing n (base.draws + 1)) =
          bType (base.governing n (base.draws + 1)) ∧
        bSel (({ base with evr := evr } : State).governing n (base.draws + 1)) =
          bSel (base.governing n (base.draws + 1))) :=
  ⟨#v[{ resetEvr with value := 0x1F02 }, resetEvr, resetEvr], by decide, by decide, by decide⟩

theorem witness_PausedHoldsTheSequencer :
    (∃ s : State, s.cfg.pausedHolds = true ∧ s.inp.paused = true) ∧ base.cfg.pausedHolds = false :=
  ⟨⟨{ base with cfg := { base.cfg with pausedHolds := true }, inp := { base.inp with paused := true } }, rfl, rfl⟩, rfl⟩

theorem witness_SequencerWritesOnlyItsState :
    (∃ s : State, s.cfg.otherMovers = .none) ∧ base.cfg.otherMovers = .free ∧ base.cfg.present = true :=
  ⟨⟨{ base with cfg := { base.cfg with otherMovers := .none } }, rfl⟩, by decide⟩

/-- A departure from Idle after a write: the value before it is still listed. -/
theorem witness_WriteGovernsFromTheDepartureFromIdle :
    (base.admittedWrite 0 0x8080).inp.idle = true ∧ busy.inp.idle = false ∧
    busy.inp.el.implemented (base.admittedWrite 0 0x8080).cfg = true ∧
    (base.admittedWrite 0 0x8080).evr[0].stale = [0x0302] := by decide

/-- The windows of G8, either byte order. -/
theorem witness_ExternalWriteStoresTheWord :
    base.cfg.externalAgent = .free ∧ base.cfg.present = true ∧
    0x108#64 = base.cfg.extBase + base.cfg.extOffset[2] ∧
    (∀ m : RegIndex, base.cfg.extOffset[m] = base.cfg.extOffset[2] → m = 2) ∧ (0x108#64).toNat % 4 = 0 ∧
    base.inp.idle = true ∧ 0x8F8F#32 &&& 0xFFFF6060#32 = 0 ∧
    ¬((0x8F8F#32).getLsbD 15 = true ∧ (0x8F8F#32).getLsbD 12 = true) ∧
    ¬((0x8F8F#32).getLsbD 7 = true ∧ (0x8F8F#32).getLsbD 4 = true) ∧ base.cfg.extBigEndian = false ∧
    ({ base.cfg with extBigEndian := true } : Config).extBigEndian = true := by decide

theorem witness_ExternalReadReturnsTheLowHalf :
    busy.cfg.externalAgent = .free ∧ busy.cfg.present = true ∧
    0x100#64 = busy.cfg.extBase + busy.cfg.extOffset[0] ∧
    (∀ m : RegIndex, busy.cfg.extOffset[m] = busy.cfg.extOffset[0] → m = 0) ∧ (0x100#64).toNat % 4 = 0 := by decide

theorem witness_ExternalAccessOfAnotherShapeIsRefused :
    base.cfg.externalAgent = .free ∧ 8 ≠ 4 ∧ ([0, 0, 0] : List Byte).length ≠ 4 ∧ (0x102#64).toNat % 4 ≠ 0 ∧
    ([0, 0, 0, 0] : List Byte).length = 4 := by decide

theorem witness_TwoViewsOneStorage :
    ∃ u t, base.extWrite 0 0x8F8F = .next u ∧ openReason base.inp.idle ((0x8F8F#32).setWidth 64) = none ∧
      (Instr.msrTrcseqevr0 1).dir = .write ∧ (Instr.msrTrcseqevr0 1).reg = 0 ∧
      openReason base.inp.idle (base.readX 1) = none ∧ exec (.msrTrcseqevr0 1) base = .next t :=
  ⟨_, _, rfl, by decide, rfl, rfl, by decide, rfl⟩

theorem witness_ResetsDrawEveryField :
    ∃ t, base.cfg.present = true ∧ t = base.traceUnitReset ∧ base.cfg.res0Mode = .razWi ∧
      (modeIs base .storage).cfg.res0Mode ≠ .razWi := ⟨_, by decide, rfl, rfl, by decide⟩

/-- `base` meets the invariant; so do `base` with a schedule and with a placed word, whose other fields are its own. -/
theorem base_inv : base.Inv :=
  ⟨by decide, by decide, fun n => by
    match n with
    | 0 => exact ⟨by decide, fun _ h => by cases h⟩
    | 1 => exact ⟨by decide, fun _ h => by cases h⟩
    | 2 => exact ⟨by decide, fun _ h => by cases h⟩,
    fun _ h => by cases h⟩

/-- Every kind of step, from states that meet the invariant. -/
theorem witness_EveryStepKeepsTheInvariant :
    ((placed 0xD5110081).Inv ∧ ∃ t, step (placed 0xD5110081) = .next t) ∧
    ∀ m ∈ [Move.sequencer ⟨0x4, 0⟩, .extRead 0x104 4, .extWrite 0x104 [0, 0, 0, 0], .traceUnitReset, .otherReset,
        .seqHavoc, .setInputs busy.inp, .setX 30 5],
      (next base [m]).Inv ∧ ∃ t, step (next base [m]) = .next t := by
  refine ⟨⟨⟨by decide, base_inv.2⟩, ⟨_, rfl⟩⟩, fun m hm => ⟨base_inv, ?_⟩⟩
  simp only [List.mem_cons, List.not_mem_nil, or_false] at hm
  obtain rfl | rfl | rfl | rfl | rfl | rfl | rfl | rfl := hm <;> exact ⟨_, rfl⟩

theorem witness_ParametersAndProgramTextAreFixed :
    ∃ t u, step (placed 0xD5110081) = .next t ∧ step (next base [.sequencer ⟨0x4, 0⟩]) = .next u := ⟨_, _, rfl, rfl⟩

/-- An `MSR` and an external write that change TRCSEQEVR2. -/
theorem witness_OnlyItsWritersChangeARegister :
    (∃ t, step (placed 0xD5110281) = .next t ∧ t.evr[2].value ≠ (placed 0xD5110281).evr[2].value) ∧
    (∃ t, step (next base [.extWrite 0x108 [0x85, 0x82, 0, 0]]) = .next t ∧ t.evr[2].value ≠ base.evr[2].value) :=
  ⟨⟨_, rfl, by decide⟩, ⟨_, rfl, by decide⟩⟩

/-- An `MRS` of X30; an `MSR`, which changes the pc alone; and the environment's change of X30. -/
theorem witness_OnlyItsWritersChangeAGeneralRegisterOrPc :
    (∃ t, step (placed 0xD531029E) = .next t ∧ t.x ≠ (placed 0xD531029E).x ∧
      t.readX 30 ≠ (placed 0xD531029E).readX 30) ∧
    (∃ t, step (placed 0xD5110281) = .next t ∧ t.pc ≠ (placed 0xD5110281).pc) ∧
    (∃ t, step (next base [.setX 30 5]) = .next t ∧ t.x ≠ base.x ∧ t.readX 30 ≠ base.readX 30) :=
  ⟨⟨_, rfl, by decide, by decide⟩, ⟨_, rfl, by decide⟩, ⟨_, rfl, by decide, by decide⟩⟩

/-- A state differs from the next one round. -/
theorem draw_ne_succ (q : Fin 4) : q ≠ q + 1 := by revert q; decide

/-- The Sequencer's own step; and, from some state, another mover; and a write while not Idle that runs. -/
theorem witness_OnlyItsMoversChangeTheSequencerState :
    (∃ t, step (next base [.sequencer ⟨0x4, 0⟩]) = .next t ∧ t.seqState ≠ base.seqState) ∧
    (∃ (q : Fin 4) (t : State), step (next { base with seqState := q } [.seqHavoc]) = .next t ∧ t.seqState ≠ q) ∧
    (∃ (q : Fin 4) (t : State),
      step (next { runs busy with seqState := q } [.extWrite 0x100 [0, 0, 0, 0]]) = .next t ∧ t.seqState ≠ q) :=
  ⟨⟨_, rfl, by decide⟩, ⟨Config.freeSeqState 0 + 1, _, rfl, by exact draw_ne_succ (Config.freeSeqState 0)⟩,
    ⟨Config.freeSeqState 0 + 1, _, rfl, by exact draw_ne_succ (Config.freeSeqState 0)⟩⟩

/-- A register that is programmed, and a step that is no reset; an `MSR` and an external write that program one. -/
theorem witness_ProgrammedLastsUntilAReset :
    (∃ t, step (next (base.admittedWrite 2 0) [.seqHavoc]) = .next t ∧
      (base.admittedWrite 2 0).evr[2].programmed = true) ∧
    (∃ t, step (placed 0xD5110281) = .next t ∧ (placed 0xD5110281).evr[2].programmed = false ∧
      t.evr[2].programmed = true) ∧
    (∃ t, step (next base [.extWrite 0x108 [0x85, 0x82, 0, 0]]) = .next t ∧ base.evr[2].programmed = false ∧
      t.evr[2].programmed = true) :=
  ⟨⟨_, rfl, by decide⟩, ⟨_, rfl, by decide, by decide⟩, ⟨_, rfl, by decide, by decide⟩⟩

/-- `base` where a Resource Selector uses the Sequencer. -/
def used : State := { base with inp := { base.inp with trcrsctlr := [⟨0b0010, 0b0001⟩] } }

/-- P1: the same value written to all three; and a selector that uses the Sequencer. -/
theorem witness_ThreeWritesMeetTheLaunchPremise :
    used.sequencerUsed = true ∧ openReason used.inp.idle (used.readX 1) = none ∧
    openReason used.inp.idle (used.readX 31) = none ∧
    ∃ u v w, exec (.msrTrcseqevr0 1) used = .next u ∧ exec (.msrTrcseqevr1 31) u = .next v ∧
      exec (.msrTrcseqevr2 1) v = .next w :=
  ⟨by decide, by decide, by decide, _, _, _, rfl, rfl, rfl⟩

/-- Single selectors, and pairs; and a departure from Idle. -/
theorem witness_BootReadyWriteDefinesItsEvents :
    (Instr.msrTrcseqevr1 1).dir = .write ∧ base.BootReady (base.readX 1) ∧
    (withX1 0x8F81).BootReady ((withX1 0x8F81).readX 1) ∧
    busy.inp.idle = false ∧ busy.inp.paused = false ∧ busy.inp.el.implemented base.cfg = true := by decide

/-- Enabled, with a write pending; and the four `SEQ_SIMUL`. -/
theorem witness_SequencerStepWithWritesPending :
    (base.admittedWrite 0 0x8080).cfg.present = true ∧ (base.admittedWrite 0 0x8080).cfg.seqIdleMoves = true ∧
    (base.admittedWrite 0 0x8080).evr[0].stale = [0x0302] ∧ busy.inp.idle = false ∧
    base.cfg.seqSimul = .any ∧ (simulIs .stay).cfg.seqSimul = .stay ∧
    (simulIs .forwardWins).cfg.seqSimul = .forwardWins ∧ (simulIs .backwardWins).cfg.seqSimul = .backwardWins := by decide

theorem witness_OnlyTheEnvironmentChangesTheInputs :
    ∃ t, step (next base [.setInputs busy.inp]) = .next t ∧ t.inp ≠ base.inp := ⟨_, rfl, by decide⟩

/-- A change to a level that is there, and to one that is not; a departure from Idle, and a change that is none. -/
theorem witness_ChangeOfInputsFrame :
    busy.inp.el.implemented base.cfg = true ∧
    EL.el3.implemented ({ base.cfg with haveEl3 := false } : Config) = false ∧
    (base.inp.idle = true ∧ busy.inp.idle = false) ∧ ¬((runs busy).inp.idle = true ∧ base.inp.idle = false) := by decide

/-- A window that no other register shares, aligned; while not Idle under either `openWrite`; a word for each test, and one that
passes them. -/
theorem witness_ExternalWriteMakesItsTests :
    busy.cfg.externalAgent = .free ∧ busy.cfg.present = true ∧ 0x104#64 = busy.cfg.extBase + busy.cfg.extOffset[1] ∧
    (∀ m : RegIndex, busy.cfg.extOffset[m] = busy.cfg.extOffset[1] → m = 1) ∧ (0x104#64).toNat % 4 = 0 ∧
    (busy.inp.idle = false ∧ busy.cfg.openWrite = .refuse) ∧
    ((runs busy).inp.idle = false ∧ (runs busy).cfg.openWrite = .run) ∧ base.inp.idle = true ∧
    0x80000000#32 &&& 0xFFFF6060#32 ≠ 0 ∧
    (0x9090#32 &&& 0xFFFF6060#32 = 0 ∧ (0x9090#32).getLsbD 15 = true ∧ (0x9090#32).getLsbD 12 = true) ∧
    (0x1090#32 &&& 0xFFFF6060#32 = 0 ∧ (0x1090#32).getLsbD 15 = false ∧ (0x1090#32).getLsbD 7 = true ∧
      (0x1090#32).getLsbD 4 = true) ∧
    (0x8F8F#32 &&& 0xFFFF6060#32 = 0 ∧ (0x8F8F#32).getLsbD 12 = false ∧ (0x8F8F#32).getLsbD 4 = false) := by decide

/-- A value with bit 14 set, and one with none, by either view; a refusal of the second while not Idle. -/
theorem witness_ReservedBitsAreNeverWritten :
    (Instr.msrTrcseqevr0 1).dir = .write ∧ base.access .write = .allow ∧
    0x4000#64 &&& 0xFFFFFFFFFFFF6060#64 ≠ 0 ∧ (0x4000#32).setWidth 64 = 0x4000#64 ∧
    (0x0302#64 &&& 0xFFFFFFFFFFFF6060#64 = 0 ∧ (0x0302#64).getLsbD 15 = false ∧ (0x0302#64).getLsbD 7 = false) ∧
    busy.readX 1 = 0x0302 ∧ refusalIs (exec (.msrTrcseqevr0 1) busy) (.openWrite .notIdle) = true ∧
    refusalIs (busy.extWrite 1 0x0302) (.openWrite .notIdle) = true := by decide

theorem witness_ScheduledAgentsTakeTheirStep :
    (next base [.sequencer ⟨0x4, 0⟩, .pe]).schedule = .sequencer ⟨0x4, 0⟩ :: [.pe] ∧
    (next base [.seqHavoc]).schedule = .seqHavoc :: [] ∧ (next base [.traceUnitReset]).schedule = .traceUnitReset :: [] ∧
    (next base [.otherReset]).schedule = .otherReset :: [] ∧
    (next base [.setInputs busy.inp]).schedule = .setInputs busy.inp :: [] ∧
    (next base [.setX 31 5]).schedule = .setX 31 5 :: [] :=
  ⟨rfl, rfl, rfl, rfl, rfl, rfl⟩

/-- The last register there is, and register 31. -/
theorem witness_ChangeOfAGeneralRegister : 30 < 31 ∧ ¬ 31 < 31 ∧ 29 ≠ 30 := by decide

end Sys2Proof.Tests
end

section
/-! SUPPORT. Beside Laws/State.lean and Laws/Ops.lean: taking a move off the schedule, the general register file, a change of the
inputs, and what an access to an absent register does. -/

namespace Sys2Proof.Machine

variable (s : State)

@[simp] theorem popMove_cfg : s.popMove.cfg = s.cfg := rfl
@[simp] theorem popMove_inp : s.popMove.inp = s.inp := rfl
@[simp] theorem popMove_x : s.popMove.x = s.x := rfl
@[simp] theorem popMove_pc : s.popMove.pc = s.pc := rfl
@[simp] theorem popMove_evr : s.popMove.evr = s.evr := rfl
@[simp] theorem popMove_seqState : s.popMove.seqState = s.seqState := rfl
@[simp] theorem popMove_mem : s.popMove.mem = s.mem := rfl
@[simp] theorem popMove_draws : s.popMove.draws = s.draws := rfl
@[simp] theorem popMove_extData : s.popMove.extData = s.extData := rfl
@[simp] theorem popMove_readX (k : Nat) : s.popMove.readX k = s.readX k := rfl
@[simp] theorem popMove_readReg (n : RegIndex) : s.popMove.readReg n = s.readReg n := rfl
@[simp] theorem popMove_access (d : Dir) : s.popMove.access d = s.access d := rfl
@[simp] theorem popMove_fetch : s.popMove.fetch = s.fetch := rfl

variable {s}

/-- A number above 30 has no storage: it reads as 0. -/
theorem readX_of_not_lt {k : Nat} (h : ¬ k < 31) : s.readX k = 0 := dif_neg h

/-- A write of a number above 30 changes nothing. -/
theorem writeX_of_not_lt {k : Nat} (h : ¬ k < 31) (v : Word) : s.writeX k v = s := dif_neg h

/-- A register that reads otherwise than before is one of `X0` to `X30`. -/
theorem lt_of_readX_ne {t : State} {k : Nat} (h : t.readX k ≠ s.readX k) : k < 31 := by
  by_contra hk
  exact h ((readX_of_not_lt hk).trans (readX_of_not_lt hk).symm)

/-- The general register file is what its registers read as. -/
theorem x_ext {t : State} (h : ∀ k, t.readX k = s.readX k) : t.x = s.x := by
  apply Vector.ext
  intro k hk
  simpa [State.readX, hk] using h k

/-- A change of the inputs settles every register on a departure from Idle, and leaves it otherwise. -/
theorem setInputs_evr_get (i : Inputs) (n : RegIndex) :
    (s.setInputs i).evr[n.val] =
      if i.el.implemented s.cfg && s.inp.idle && !i.idle then s.evr[n.val].settle else s.evr[n.val] := by
  unfold State.setInputs
  cases i.el.implemented s.cfg with
  | false => rfl
  | true =>
    cases hleave : s.inp.idle && !i.idle with
    | false => simp [hleave]
    | true => fin_cases n <;> simp [hleave]

@[simp] theorem setInputs_evr_value (i : Inputs) (n : RegIndex) :
    (s.setInputs i).evr[n.val].value = s.evr[n.val].value := by
  rw [setInputs_evr_get]; split <;> rfl

@[simp] theorem setInputs_evr_programmed (i : Inputs) (n : RegIndex) :
    (s.setInputs i).evr[n.val].programmed = s.evr[n.val].programmed := by
  rw [setInputs_evr_get]; split <;> rfl

/-- An external access that reaches a register found it present, at its window. -/
theorem extTarget_ok {addr : Word} {size : Nat} {n : RegIndex} (h : s.extTarget addr size = .ok n) :
    size = 4 ∧ addr.toNat % 4 = 0 ∧ s.cfg.present = true ∧ extIndex s.cfg addr = some n := by
  unfold State.extTarget at h
  split at h
  · cases h
  split at h
  · cases h
  split at h
  · cases h
  rename_i hsize halign hpresent
  split at h
  · rename_i m hm
    cases h
    exact ⟨not_not.1 hsize, not_not.1 halign, by simpa using hpresent, hm⟩
  · cases h

section Absent
variable (hp : s.cfg.present = false)
include hp

/-- Every access to an absent register is `Undefined` (00_scope.md R2). -/
theorem access_of_absent (d : Dir) : s.access d = .undefined := by simp [State.access, accessCheck, hp]

theorem sequencerStep_of_absent (a : Answers) : s.sequencerStep a = s := by
  simp [State.sequencerStep, State.sequencerEnabled, hp]

theorem seqHavoc_of_absent : s.seqHavoc = s := by simp [State.seqHavoc, hp]

theorem traceUnitReset_of_absent : s.traceUnitReset = s := by simp [State.traceUnitReset, hp]

theorem exec_of_absent (i : Instr) : exec i s = .fault .undefined := by
  rw [exec_access, access_of_absent hp, byAccess_undefined]

end Absent

end Sys2Proof.Machine
end

section
/-! SUPPORT. The inversion of a step: everything one step of any agent can do, case by case. The whole-machine statements are case
analyses over `StepEffect`. -/

namespace Sys2Proof.Machine

/-- The PE is next and the word at its pc is the instruction. -/
structure State.PeRuns (s : State) (bytes : List Byte) (i : Instr) (rest : List Byte) : Prop where
  isNext : s.schedule = [] ∨ ∃ later, s.schedule = .pe :: later
  fetched : s.fetch = .ok bytes
  decoded : decode bytes = .instr i rest

/-- The next states of a completed step, one constructor per operation of an agent. -/
inductive StepEffect (s : State) : State → Prop where
  | mrs {bytes : List Byte} {i : Instr} {rest : List Byte} (runs : s.PeRuns bytes i rest)
      (dir : i.dir = .read) (allowed : s.access .read = .allow) :
      StepEffect s (s.popMove.mrsEffect i.reg i.rt)
  | msr {bytes : List Byte} {i : Instr} {rest : List Byte} {u : State} (runs : s.PeRuns bytes i rest)
      (dir : i.dir = .write) (allowed : s.access .write = .allow)
      (written : s.popMove.writeReg i.reg (s.readX i.rt) = .next u) :
      StepEffect s u.advancePc
  | sequencer {a : Answers} {later : List Move} (sched : s.schedule = .sequencer a :: later) :
      StepEffect s (s.popMove.sequencerStep a)
  | extRead {addr : Word} {size : Nat} {later : List Move} (sched : s.schedule = .extRead addr size :: later)
      (d : List Byte) :
      StepEffect s { s.popMove with extData := d }
  | extWriteDisabled {addr : Word} {bytes : List Byte} {later : List Move}
      (sched : s.schedule = .extWrite addr bytes :: later) :
      StepEffect s s.popMove
  | extWrite {addr : Word} {b0 b1 b2 b3 : Byte} {later : List Move} {n : RegIndex} {t : State}
      (sched : s.schedule = .extWrite addr [b0, b1, b2, b3] :: later)
      (free : s.cfg.externalAgent = .free) (present : s.cfg.present = true) (window : extIndex s.cfg addr = some n)
      (written : s.popMove.writeReg n ((extWordOfBytes s.cfg.extBigEndian b0 b1 b2 b3).setWidth 64) = .next t) :
      StepEffect s t
  | traceUnitReset {later : List Move} (sched : s.schedule = .traceUnitReset :: later) :
      StepEffect s s.popMove.traceUnitReset
  | otherReset {later : List Move} (sched : s.schedule = .otherReset :: later) :
      StepEffect s s.popMove.traceUnitReset
  | seqHavoc {later : List Move} (sched : s.schedule = .seqHavoc :: later) :
      StepEffect s s.popMove.seqHavoc
  | setInputs {i : Inputs} {later : List Move} (sched : s.schedule = .setInputs i :: later) :
      StepEffect s (s.popMove.setInputs i)
  | setX {k : Nat} {v : Word} {later : List Move} (sched : s.schedule = .setX k v :: later) :
      StepEffect s (s.popMove.writeX k v)

/-- With an entry next, the step is that entry's move, from the state with it taken off. -/
theorem step_of_schedule {s : State} {m : Move} {later : List Move} (h : s.schedule = m :: later) :
    step s = State.runMove { s with schedule := later } m := by
  simp only [step, h]

/-- A completed step of the PE is an allowed `MRS` or `MSR`. -/
theorem stepEffect_of_peStep {s t : State} (hnext : s.schedule = [] ∨ ∃ later, s.schedule = .pe :: later)
    (h : s.popMove.peStep = .next t) : StepEffect s t := by
  obtain ⟨bytes, i, rest, hfetch, hdecode, hexec⟩ := peStep_next h
  have hruns : s.PeRuns bytes i rest := ⟨hnext, hfetch, hdecode⟩
  cases hdir : i.dir with
  | read =>
    rw [exec_read hdir] at hexec
    obtain ⟨hallow, rfl⟩ := mrs_next hexec
    exact .mrs hruns hdir hallow
  | write =>
    rw [exec_write hdir] at hexec
    obtain ⟨hallow, u, hwrite, rfl⟩ := msr_next hexec
    exact .msr hruns hdir hallow hwrite

/-- Everything a completed step can have done. -/
theorem step_effect {s t : State} (h : step s = .next t) : StepEffect s t := by
  cases hs : s.schedule with
  | nil =>
    rw [step_eq_runMove, State.nextMove, hs] at h
    exact stepEffect_of_peStep (.inl hs) h
  | cons m later =>
    rw [step_eq_runMove, State.nextMove, hs] at h
    cases m with
    | pe => exact stepEffect_of_peStep (.inr ⟨later, hs⟩) h
    | sequencer a => cases h; exact .sequencer hs
    | extRead addr size =>
      obtain ⟨d, rfl⟩ := extReadStep_next h
      exact .extRead hs d
    | extWrite addr bytes =>
      obtain rfl | ⟨n, b0, b1, b2, b3, rfl, hfree, htarget, hwrite⟩ := extWriteStep_next h
      · exact .extWriteDisabled hs
      · obtain ⟨-, -, hpresent, hwindow⟩ := extTarget_ok htarget
        exact .extWrite hs hfree hpresent hwindow hwrite
    | traceUnitReset => cases h; exact .traceUnitReset hs
    | otherReset => cases h; exact .otherReset hs
    | seqHavoc => cases h; exact .seqHavoc hs
    | setInputs i => cases h; exact .setInputs hs
    | setX k v => cases h; exact .setX hs

end Sys2Proof.Machine
end

section
/-! SUPPORT. The scope family (00_scope.md): what the agents' steps are, what they leave, and what moves the pc and the general
registers. -/

namespace Sys2Proof.Machine

/-- No step changes a parameter or the program text. -/
theorem step_cfg_mem {s t : State} (h : step s = .next t) : t.cfg = s.cfg ∧ t.mem = s.mem := by
  cases step_effect h with
  | msr _ _ _ written | extWrite _ _ _ _ written =>
    obtain ⟨-, -, -, hcfg, -, -, -, hmem, -⟩ := writeReg_put written
    simpa using And.intro hcfg hmem
  | extRead | extWriteDisabled => exact ⟨rfl, rfl⟩
  | mrs => simp [State.mrsEffect]
  | sequencer | traceUnitReset | otherReset | seqHavoc | setInputs | setX => simp

/-- With the registers absent no instruction and no external write completes, and the steps that do leave what every register
holds, its programmed status and the Sequencer state. -/
theorem step_of_absent {s t : State} (hp : s.cfg.present = false) (h : step s = .next t) :
    t.seqState = s.seqState ∧
      ∀ n : RegIndex, t.evr[n].value = s.evr[n].value ∧ t.evr[n].programmed = s.evr[n].programmed := by
  have hp' : s.popMove.cfg.present = false := hp
  cases step_effect h with
  | mrs _ _ allowed | msr _ _ allowed => rw [access_of_absent hp] at allowed; cases allowed
  | extWrite _ _ present => rw [hp] at present; cases present
  | extRead | extWriteDisabled => exact ⟨rfl, fun _ => ⟨rfl, rfl⟩⟩
  | sequencer => rw [sequencerStep_of_absent hp']; exact ⟨rfl, fun _ => ⟨rfl, rfl⟩⟩
  | traceUnitReset | otherReset => rw [traceUnitReset_of_absent hp']; exact ⟨rfl, fun _ => ⟨rfl, rfl⟩⟩
  | seqHavoc => rw [seqHavoc_of_absent hp']; exact ⟨rfl, fun _ => ⟨rfl, rfl⟩⟩
  | setInputs | setX => simp

/-- Only an allowed instruction changes the pc. -/
theorem step_pc {s t : State} (h : step s = .next t) (hne : t.pc ≠ s.pc) :
    ∃ bytes i rest, s.PeRuns bytes i rest ∧ s.access i.dir = .allow := by
  cases step_effect h with
  | mrs runs dir allowed => exact ⟨_, _, _, runs, dir ▸ allowed⟩
  | msr runs dir allowed => exact ⟨_, _, _, runs, dir ▸ allowed⟩
  | extWrite _ _ _ _ written =>
    obtain ⟨-, -, -, -, -, -, hpc, -⟩ := writeReg_put written
    exact absurd hpc hne
  | extRead | extWriteDisabled => exact absurd rfl hne
  | sequencer | traceUnitReset | otherReset | seqHavoc | setInputs | setX => simp at hne

/-- Only an allowed `MRS` that names it, or the environment, changes what a general register reads as. -/
theorem step_readX {s t : State} {k : Nat} (h : step s = .next t) (hne : t.readX k ≠ s.readX k) :
    (∃ bytes i rest, s.PeRuns bytes i rest ∧ s.access .read = .allow ∧ i.dir = .read ∧ i.rt = k ∧
      t.readX k = s.readReg i.reg) ∨
    (∃ v later, s.schedule = .setX k v :: later ∧ t.readX k = v) := by
  have hk : k < 31 := lt_of_readX_ne hne
  have hfile : t.x ≠ s.x := fun hx => hne (readX_congr hx k)
  cases step_effect h with
  | @mrs bytes i rest runs dir allowed =>
    have hread : (s.popMove.mrsEffect i.reg i.rt).readX k = (s.popMove.writeX i.rt (s.readReg i.reg)).readX k :=
      readX_congr (advancePc_x _) k
    by_cases hrt : k = i.rt
    · subst hrt
      exact .inl ⟨bytes, i, rest, runs, allowed, dir, rfl, hread.trans (readX_writeX_same _ hk _)⟩
    · exact absurd (hread.trans (readX_writeX_other _ hrt _)) hne
  | @setX j v later sched =>
    by_cases hj : k = j
    · subst hj
      exact .inr ⟨v, later, sched, readX_writeX_same _ hk v⟩
    · exact absurd (readX_writeX_other _ hj v) hne
  | msr _ _ _ written | extWrite _ _ _ _ written =>
    obtain ⟨-, -, -, -, -, hx, -⟩ := writeReg_put written
    exact absurd (by simpa using hx) hfile
  | extRead | extWriteDisabled => exact absurd rfl hfile
  | sequencer | traceUnitReset | otherReset | seqHavoc | setInputs => simp at hfile

end Sys2Proof.Machine
end

section
/-! The statements of the scope family, settled. -/

namespace Sys2Proof.Machine

/-- Settles O24: the access check of absent registers is `Undefined`, and every other agent's rule asks for their presence. -/
theorem absentRegistersAreInert : Obligations.AbsentRegistersAreInert := by
  intro s hp
  exact ⟨exec_of_absent hp, sequencerStep_of_absent hp, seqHavoc_of_absent hp, fun _ => step_of_absent hp⟩

/-- Settles O39, by the cases of a step. -/
theorem parametersAndProgramTextAreFixed : Obligations.ParametersAndProgramTextAreFixed :=
  fun _ _ => step_cfg_mem

/-- Settles O41, by the cases of a step; the register file is what its registers read as. -/
theorem onlyItsWritersChangeAGeneralRegisterOrPc : Obligations.OnlyItsWritersChangeAGeneralRegisterOrPc := by
  intro s t h
  refine ⟨fun hpc => ?_, fun hx => ?_, fun k hk => ⟨lt_of_readX_ne hk, ?_⟩⟩
  · obtain ⟨bytes, i, rest, runs, allowed⟩ := step_pc h hpc
    exact ⟨bytes, i, rest, runs.isNext, runs.fetched, runs.decoded, allowed⟩
  · by_contra hnone
    exact hx (x_ext fun k => not_not.1 (not_exists.1 hnone k))
  · refine (step_readX h hk).imp ?_ id
    rintro ⟨bytes, i, rest, runs, hi⟩
    exact ⟨bytes, i, rest, runs.isNext, runs.fetched, runs.decoded, hi⟩

/-- Settles O52: the move is `State.writeX`, whose frame is in Laws/State.lean. -/
theorem changeOfAGeneralRegister : Obligations.ChangeOfAGeneralRegister := by
  intro s k v
  refine ⟨s.writeX k v, rfl, fun hk => readX_writeX_same s hk v, fun hk => writeX_of_not_lt hk v,
    fun j hj => readX_writeX_other s hj v, readX_31 _, ?_⟩
  simp

/-- Settles O51: the schedule's head is the move that `State.runMove` makes. -/
theorem scheduledAgentsTakeTheirStep : Obligations.ScheduledAgentsTakeTheirStep := by
  rintro s q later rfl
  exact ⟨fun _ => step_of_schedule, step_of_schedule, step_of_schedule, step_of_schedule, fun _ => step_of_schedule,
    fun _ _ => step_of_schedule, fun _ => rfl, rfl⟩

end Sys2Proof.Machine
end

section
/-! SUPPORT. Beside the laws above: what a write of TRCSEQEVR<n> refuses and what it programs, a reset and a change of the inputs
register by register, and the pc at the top of the address space. -/

namespace Sys2Proof.Machine

variable {s : State} {n : RegIndex} {v : Word}

/-- A write of a general register changes the register file alone. -/
theorem writeX_eq (k : Nat) :
    s.writeX k v = { s with x := if h : k < 31 then s.x.set k v else s.x } := by
  unfold State.writeX
  split <;> rfl

/-- At the top of the address space the next pc is a draw (log 14). -/
theorem advancePc_eq_of_top (h : ¬ s.pc.toNat + 4 < 2 ^ 64) :
    s.advancePc = { s with pc := Config.freePc s.draws, draws := s.draws + 1 } := if_neg h

/-- A completed `MRS` leaves in its general register what a read of its TRCSEQEVR returns. -/
theorem exec_read_readX {i : Instr} {u : State} (hdir : i.dir = .read) (hrt : i.rt < 31) (h : exec i s = .next u) :
    u.readX i.rt = s.readReg i.reg := by
  rw [exec_read hdir] at h
  obtain ⟨-, rfl⟩ := mrs_next h
  exact (readX_congr (advancePc_x _) _).trans (readX_writeX_same _ hrt _)

/-- A completed `MRS` leaves what every TRCSEQEVR reads as. -/
theorem exec_read_readReg {i : Instr} {u : State} (hdir : i.dir = .read) (h : exec i s = .next u) :
    u.readReg n = s.readReg n := by
  rw [exec_read hdir] at h
  obtain ⟨-, rfl⟩ := mrs_next h
  exact readReg_congr (by simp [State.mrsEffect]) (by simp [State.mrsEffect])

theorem fieldMask_and_reservedMask : fieldMask &&& reservedMask = 0 := by decide

/-- An always-reserved position is no field's. -/
theorem fieldMask_getLsbD_of_reserved {k : Nat} (h : reservedMask.getLsbD k = true) : fieldMask.getLsbD k = false := by
  simpa [h] using congrArg (·.getLsbD k) fieldMask_and_reservedMask

/-- A value may be written when it has a 1 in none of the RES0 positions of 10_state.md R15 and R19. -/
theorem reservedReason_eq_none_iff_bits :
    reservedReason v = none ↔ v &&& 0xFFFFFFFFFFFF6060#64 = 0 ∧ ¬(v.getLsbD 15 = true ∧ v.getLsbD 12 = true) ∧
      ¬(v.getLsbD 7 = true ∧ v.getLsbD 4 = true) := by
  simp [reservedReason_eq_none, reservedMask, bType, fType]

/-- A write of a value with a 1 in a RES0 position is refused, Idle or not and under either `openWrite`. -/
theorem writeReg_refused_of_reserved (h : reservedReason v ≠ none) :
    ∃ why, s.writeReg n v = .refused (.openWrite why) := by
  obtain ⟨reason, hreason⟩ := Option.ne_none_iff_exists'.1 h
  unfold State.writeReg
  split
  · cases s.inp.idle with
    | true => exact ⟨reason, by rw [openReason_idle, hreason, byTests_some]⟩
    | false => exact ⟨.notIdle, rfl⟩
  · exact ⟨reason, by rw [hreason, byTests_some]⟩

/-- A write of any other value is refused only while not Idle, under that name. -/
theorem writeReg_refused_of_not_reserved {why : Refusal} (hv : reservedReason v = none)
    (h : s.writeReg n v = .refused why) : s.inp.idle = false ∧ why = .openWrite .notIdle := by
  unfold State.writeReg at h
  split at h
  · cases hidle : s.inp.idle with
    | true => rw [hidle, openReason_idle, hv] at h; cases h
    | false => rw [hidle] at h; cases h; exact ⟨rfl, rfl⟩
  · rw [hv] at h; cases h

/-- An allowed `MSR` whose write is refused is refused by the same name. -/
theorem msr_refused_of_writeReg {k : Nat} {why : Refusal} (ha : s.access .write = .allow)
    (h : s.writeReg n (s.readX k) = .refused why) : msr n k s = .refused why := by
  simp only [msr, ha, h, byAccess_allow, andThen]

/-- A refused `MSR` was refused by its write: the access check refuses nothing. -/
theorem writeReg_of_msr_refused {k : Nat} {why : Refusal} (h : msr n k s = .refused why) :
    s.writeReg n (s.readX k) = .refused why := by
  unfold msr at h
  cases ha : s.access .write with
  | undefined => rw [ha] at h; cases h
  | trap el => rw [ha] at h; cases h
  | allow =>
    rw [ha, byAccess_allow] at h
    cases hw : s.writeReg n (s.readX k) with
    | next u => rw [hw] at h; cases h
    | fault e => rw [hw] at h; cases h
    | refused r => rw [hw] at h; cases h; rfl

/-- No write clears `Programmed` (10_state.md R25). -/
theorem writeReg_keeps_programmed {m : RegIndex} {t : State} (h : s.writeReg m v = .next t)
    (hp : s.evr[n].programmed = true) : t.evr[n].programmed = true := by
  obtain ⟨w, b, hevr, -, -, -, -, -, -, -, -, -, hb⟩ := writeReg_put h
  rw [hevr, Fin.getElem_fin]
  by_cases hn : n = m
  · subst hn
    rw [putReg_evr_same]
    exact hb hp
  · rw [putReg_evr_other s m w b hn]
    exact hp

/-- A write that sets `Programmed` is an admitted one of that register, which then holds the value. -/
theorem writeReg_sets_programmed {m : RegIndex} {t : State} (h : s.writeReg m v = .next t)
    (hp : s.evr[n].programmed = false) (hp' : t.evr[n].programmed = true) :
    m = n ∧ s.inp.idle = true ∧ reservedReason v = none ∧ t.evr[n].value = v := by
  have hsame : n = m := by
    by_contra hn
    obtain ⟨w, b, hevr, -⟩ := writeReg_put h
    rw [hevr, Fin.getElem_fin, putReg_evr_other s m w b hn] at hp'
    exact Bool.false_ne_true (hp.symm.trans hp')
  subst hsame
  rcases writeReg_next h with ⟨hopen, rfl⟩ | ⟨-, -, -, rfl⟩
  · obtain ⟨hidle, hv⟩ := openReason_eq_none.1 hopen
    exact ⟨rfl, hidle, hv, by simp [State.admittedWrite]⟩
  · have hkept : (s.busyWrite n).evr[n].programmed = s.evr[n].programmed := by simp [State.busyWrite]
    exact absurd (hp.symm.trans (hkept.symm.trans hp')) Bool.false_ne_true

/-- A Trace unit reset draws every register that is there. -/
theorem traceUnitReset_evr_get (s : State) (n : RegIndex) :
    s.traceUnitReset.evr[n.val] =
      if s.cfg.present then drawnEvr s.cfg.res0Mode (s.draws + 2 * n.val) else s.evr[n.val] := by
  unfold State.traceUnitReset
  cases s.cfg.present with
  | false => rfl
  | true => fin_cases n <;> rfl

/-- A change of the inputs to a level the implementation has sets them; another does nothing. -/
theorem setInputs_inp (s : State) (i : Inputs) :
    (s.setInputs i).inp = if i.el.implemented s.cfg then i else s.inp := by
  unfold State.setInputs
  (repeat' split) <;> rfl

end Sys2Proof.Machine
end

section
/-! SUPPORT. The invariant `State.Inv`, operation by operation, and what a step does to `Programmed` and to the inputs. -/

namespace Sys2Proof.Machine

/-- The invariant speaks of the parameters, the inputs, the three registers and memory alone. -/
theorem inv_congr {s t : State} (hcfg : t.cfg = s.cfg) (hinp : t.inp = s.inp) (hevr : t.evr = s.evr)
    (hmem : t.mem = s.mem) (h : s.Inv) : t.Inv := by
  unfold State.Inv State.Settled at *
  rwa [hcfg, hinp, hevr, hmem]

/-- A drawn value has its reserved positions clear where `RES0_MODE` asks for it. -/
theorem reservedClear_drawnValue (c : Config) (d : Word) : reservedClear c (drawnValue c.res0Mode d) := by
  intro hmode
  simp [hmode, drawnValue, BitVec.and_assoc, fieldMask_and_reservedMask]

/-- A register just reset is clear. -/
theorem drawnEvr_clear (c : Config) (k : Nat) : (drawnEvr c.res0Mode k).Clear c :=
  ⟨reservedClear_drawnValue c _, fun _ h => absurd h List.not_mem_nil⟩

/-- A settled register is clear where it was. -/
theorem settle_clear {c : Config} {e : Evr} (h : e.Clear c) : e.settle.Clear c := by
  obtain ⟨hvalue, -⟩ := h
  exact ⟨hvalue, fun _ h => absurd h List.not_mem_nil⟩

/-- To put a clear value into a register keeps every register clear: the value it had joins the older ones. -/
theorem putReg_clear {s : State} {n : RegIndex} {w : Word} (h : ∀ m : RegIndex, s.evr[m].Clear s.cfg)
    (hw : reservedClear s.cfg w) (b : Bool) (m : RegIndex) : (s.putReg n w b).evr[m].Clear s.cfg := by
  rw [Fin.getElem_fin]
  by_cases hm : m = n
  · subst hm
    obtain ⟨hvalue, hstale⟩ := h m
    rw [putReg_evr_same]
    exact ⟨hw, List.forall_mem_cons.2 ⟨hvalue, hstale⟩⟩
  · rw [putReg_evr_other s n w b hm]
    exact h m

/-- A write keeps the invariant: an admitted one has clear reserved bits and is made while Idle, one that runs while not Idle
takes a drawn value, and does so only where open writes run. -/
theorem writeReg_inv {s t : State} {n : RegIndex} {v : Word} (h : s.Inv) (hw : s.writeReg n v = .next t) : t.Inv := by
  obtain ⟨hmem, hel, hclear, -⟩ := h
  rcases writeReg_next hw with ⟨hopen, rfl⟩ | ⟨hrun, -, -, rfl⟩
  · obtain ⟨hidle, hreserved, -⟩ := openReason_none hopen
    exact ⟨hmem, hel, putReg_clear hclear (fun _ => hreserved) true,
      fun _ hbusy => absurd (hbusy.symm.trans hidle) Bool.false_ne_true⟩
  · exact ⟨hmem, hel, putReg_clear hclear (reservedClear_drawnValue _ _) _,
      fun hrefuse => absurd (hrun.symm.trans hrefuse) (by decide)⟩

/-- A Trace unit reset keeps the invariant: it leaves drawn registers with no older value. -/
theorem traceUnitReset_inv {s : State} (h : s.Inv) : s.traceUnitReset.Inv := by
  obtain ⟨hmem, hel, hclear, hsettled⟩ := h
  refine ⟨by simpa using hmem, by simpa using hel, fun n => ?_, fun hrefuse hbusy n => ?_⟩
  · rw [Fin.getElem_fin, traceUnitReset_evr_get, traceUnitReset_cfg]
    split
    · exact drawnEvr_clear s.cfg _
    · exact hclear n
  · rw [traceUnitReset_cfg] at hrefuse
    rw [traceUnitReset_inp] at hbusy
    rw [Fin.getElem_fin, traceUnitReset_evr_get]
    split
    · rfl
    · exact hsettled hrefuse hbusy n

/-- A change of the inputs keeps the invariant: it is to a level that is there, and a departure from Idle settles every register
(20_memory.md R32). -/
theorem setInputs_inv {s : State} (i : Inputs) (h : s.Inv) : (s.setInputs i).Inv := by
  obtain ⟨hmem, hel, hclear, hsettled⟩ := h
  refine ⟨by simpa using hmem, ?_, fun n => ?_, fun hrefuse hbusy n => ?_⟩
  · rw [setInputs_inp, setInputs_cfg]
    split
    · assumption
    · exact hel
  · rw [Fin.getElem_fin, setInputs_evr_get, setInputs_cfg]
    split
    · exact settle_clear (hclear n)
    · exact hclear n
  · rw [setInputs_cfg] at hrefuse
    rw [setInputs_inp] at hbusy
    rw [Fin.getElem_fin, setInputs_evr_get]
    split
    · rfl
    · rename_i hstays
      refine hsettled hrefuse ?_ n
      cases himpl : i.el.implemented s.cfg with
      | false => simpa [himpl] using hbusy
      | true =>
        have hleft : i.idle = false := by simpa [himpl] using hbusy
        simpa [himpl, hleft] using hstays

/-- Every step keeps the invariant, by the cases of a step. -/
theorem step_inv {s t : State} (hs : s.Inv) (h : step s = .next t) : t.Inv := by
  have hpop : s.popMove.Inv := hs
  cases step_effect h with
  | msr _ _ _ written =>
    exact inv_congr (advancePc_cfg _) (advancePc_inp _) (advancePc_evr _) (advancePc_mem _) (writeReg_inv hpop written)
  | extWrite _ _ _ _ written => exact writeReg_inv hpop written
  | traceUnitReset | otherReset => exact traceUnitReset_inv hpop
  | setInputs => exact setInputs_inv _ hpop
  | extRead | extWriteDisabled => exact hpop
  | mrs | sequencer | seqHavoc | setX => refine inv_congr ?_ ?_ ?_ ?_ hpop <;> simp [State.mrsEffect]

/-- A step that is no reset clears no `Programmed`. -/
theorem step_keeps_programmed {s t : State} {n : RegIndex} (h : step s = .next t)
    (hp : s.evr[n].programmed = true) (htur : ∀ later, s.schedule ≠ .traceUnitReset :: later)
    (hother : ∀ later, s.schedule ≠ .otherReset :: later) : t.evr[n].programmed = true := by
  cases step_effect h with
  | msr _ _ _ written =>
    rw [advancePc_evr]
    exact writeReg_keeps_programmed written hp
  | extWrite _ _ _ _ written => exact writeReg_keeps_programmed written hp
  | traceUnitReset sched => exact absurd sched (htur _)
  | otherReset sched => exact absurd sched (hother _)
  | extRead | extWriteDisabled => exact hp
  | mrs | sequencer | seqHavoc | setInputs | setX => simpa [State.mrsEffect] using hp

/-- A step that sets `Programmed[n]` is an admitted write of TRCSEQEVR<n>, by an allowed `MSR` or through its window, and leaves
the value written. -/
theorem step_sets_programmed {s t : State} {n : RegIndex} (h : step s = .next t)
    (hp : s.evr[n].programmed = false) (hp' : t.evr[n].programmed = true) :
    s.cfg.present = true ∧ s.inp.idle = true ∧
      ((∃ bytes i rest, s.PeRuns bytes i rest ∧ i.dir = .write ∧ i.reg = n ∧ s.access .write = .allow ∧
          reservedReason (s.readX i.rt) = none ∧ t.evr[n].value = s.readX i.rt) ∨
       (∃ addr b0 b1 b2 b3 later w, s.schedule = .extWrite addr [b0, b1, b2, b3] :: later ∧
          s.cfg.externalAgent = .free ∧ extIndex s.cfg addr = some n ∧
          w = (extWordOfBytes s.cfg.extBigEndian b0 b1 b2 b3).setWidth 64 ∧
          reservedReason w = none ∧ t.evr[n].value = w)) := by
  have hchanged : t.evr[n].programmed ≠ s.evr[n].programmed := by rw [hp, hp']; decide
  cases step_effect h with
  | msr runs dir allowed written =>
    rw [advancePc_evr] at hp' ⊢
    obtain ⟨hreg, hidle, hv, hvalue⟩ := writeReg_sets_programmed written hp hp'
    have hpresent : s.cfg.present = true := by
      by_contra habsent
      rw [access_of_absent (Bool.not_eq_true _ ▸ habsent)] at allowed
      cases allowed
    exact ⟨hpresent, hidle, .inl ⟨_, _, _, runs, dir, hreg, allowed, hv, hvalue⟩⟩
  | extWrite sched free present window written =>
    obtain ⟨rfl, hidle, hv, hvalue⟩ := writeReg_sets_programmed written hp hp'
    exact ⟨present, hidle, .inr ⟨_, _, _, _, _, _, _, sched, free, window, rfl, hv, hvalue⟩⟩
  | traceUnitReset | otherReset =>
    rw [Fin.getElem_fin, traceUnitReset_evr_get] at hp'
    split at hp'
    · cases hp'
    · exact absurd (hp.symm.trans hp') Bool.false_ne_true
  | extRead | extWriteDisabled => exact absurd rfl hchanged
  | mrs | sequencer | seqHavoc | setInputs | setX => simp [State.mrsEffect] at hchanged

/-- A step that changes the inputs is the environment's change of them, to a level the implementation has. -/
theorem step_inp {s t : State} (h : step s = .next t) (hne : t.inp ≠ s.inp) :
    ∃ i later, s.schedule = .setInputs i :: later ∧ t.inp = i ∧ i.el.implemented s.cfg = true := by
  cases step_effect h with
  | @setInputs i later sched =>
    rw [setInputs_inp] at hne ⊢
    split at hne
    · rename_i himpl
      exact ⟨i, later, sched, if_pos himpl, himpl⟩
    · exact absurd rfl hne
  | msr _ _ _ written | extWrite _ _ _ _ written =>
    obtain ⟨-, -, -, -, hinp, -⟩ := writeReg_put written
    exact absurd (by simpa using hinp) hne
  | extRead | extWriteDisabled => exact absurd rfl hne
  | mrs | sequencer | traceUnitReset | otherReset | seqHavoc | setX => simp [State.mrsEffect] at hne

end Sys2Proof.Machine
end

section
/-! SUPPORT. The fields of a packed value (10_state.md R7). -/

namespace Sys2Proof.Machine

/-- The fields of a value, packed, are its non-reserved bits. -/
theorem pack_fields (v : Word) : pack (bType v) (bSel v) (fType v) (fSel v) = v &&& fieldMask := by
  apply BitVec.eq_of_getLsbD_eq
  intro i hi
  simp only [pack, bType, bSel, fType, fSel, fieldMask, BitVec.getLsbD_setWidth, BitVec.getLsbD_append,
    BitVec.getLsbD_extractLsb', BitVec.getLsbD_and, BitVec.getLsbD_ofBool]
  interval_cases i <;> simp

variable (bt : Bool) (bs : BitVec 5) (ft : Bool) (fs : BitVec 5)

@[simp] theorem bType_pack : bType (pack bt bs ft fs) = bt := by
  simp only [bType, pack, BitVec.getLsbD_setWidth, BitVec.getLsbD_append]
  simp

@[simp] theorem fType_pack : fType (pack bt bs ft fs) = ft := by
  simp only [fType, pack, BitVec.getLsbD_setWidth, BitVec.getLsbD_append]
  simp

@[simp] theorem bSel_pack : bSel (pack bt bs ft fs) = bs := by
  apply BitVec.eq_of_getLsbD_eq
  intro i hi
  simp only [bSel, pack, BitVec.getLsbD_extractLsb', BitVec.getLsbD_setWidth, BitVec.getLsbD_append]
  interval_cases i <;> simp

@[simp] theorem fSel_pack : fSel (pack bt bs ft fs) = fs := by
  apply BitVec.eq_of_getLsbD_eq
  intro i hi
  simp only [fSel, pack, BitVec.getLsbD_extractLsb', BitVec.getLsbD_setWidth, BitVec.getLsbD_append]
  interval_cases i <;> simp

end Sys2Proof.Machine
end

section
/-! The statements of the state family, settled. -/

namespace Sys2Proof.Machine

/-- Settles O38, by the cases of a step: each operation keeps the invariant. -/
theorem everyStepKeepsTheInvariant : Obligations.EveryStepKeepsTheInvariant :=
  fun _ _ => step_inv

/-- Settles O17: the effect is that of a lower pc, and the pc the draw of log 14. -/
theorem pcIsFreeAtTheTopOfMemory : Obligations.PcIsFreeAtTheTopOfMemory := by
  intro s i htop hallow
  refine ⟨fun hdir => ?_, fun hdir hopen => ?_⟩ <;> rw [hdir] at hallow
  · have htop' : ¬ (s.writeX i.rt (s.readReg i.reg)).pc.toNat + 4 < 2 ^ 64 := by rwa [writeX_pc]
    rw [exec_read hdir, mrs, hallow, byAccess_allow, State.mrsEffect, advancePc_eq_of_top htop', writeX_eq]
  · refine ⟨(s.admittedWrite i.reg (s.readX i.rt)).advancePc, ?_, ?_, ?_,
      congrArg State.pc (advancePc_eq_of_top (s := s.admittedWrite i.reg (s.readX i.rt)) htop)⟩
    · rw [exec_write hdir, msr, hallow, byAccess_allow, writeReg_admitted hopen, andThen_of_next]
    all_goals simp [State.admittedWrite]

/-- Settles O18: the masks are disjoint, and each `RES0_MODE` is a case of its own. -/
theorem readReturnsByRes0Mode : Obligations.ReadReturnsByRes0Mode := by
  intro s n k
  refine ⟨fun hfield => ?_, fun hreserved => ?_⟩
  · simpa [hfield] using congrArg (·.getLsbD k) (readReg_and_fieldMask s n)
  · have hfield := fieldMask_getLsbD_of_reserved hreserved
    cases hmode : s.cfg.res0Mode <;> simp [State.readReg, hmode, hfield, hreserved]

/-- Settles O23: the first `MRS` leaves what the register reads as. -/
theorem repeatedReadsAgree : Obligations.RepeatedReadsAgree := by
  intro r1 r2 s u t hr1 hr2 hreg hrt1 hrt2 h1 h2
  calc t.readX r2.rt = u.readReg r2.reg := exec_read_readX hr2 hrt2 h2
    _ = s.readReg r2.reg := exec_read_readReg hr1 h1
    _ = s.readReg r1.reg := by rw [hreg]
    _ = u.readX r1.rt := (exec_read_readX hr1 hrt1 h1).symm

/-- Settles O25, field by field. -/
theorem fieldsPackAndUnpack : Obligations.FieldsPackAndUnpack :=
  ⟨pack_fields, fun bt bs ft fs => ⟨bType_pack bt bs ft fs, bSel_pack bt bs ft fs, fType_pack bt bs ft fs,
    fSel_pack bt bs ft fs⟩⟩

/-- Settles O43, by the cases of a step: only an admitted write sets `Programmed`, and only a reset clears it. -/
theorem programmedLastsUntilAReset : Obligations.ProgrammedLastsUntilAReset := by
  intro s t n h
  refine ⟨step_keeps_programmed h, fun hp hp' => ?_⟩
  obtain ⟨hpresent, hidle, hwriter⟩ := step_sets_programmed h hp hp'
  refine ⟨hpresent, hidle, hwriter.imp ?_ id⟩
  rintro ⟨bytes, i, rest, runs, hi⟩
  exact ⟨bytes, i, rest, runs.isNext, runs.fetched, runs.decoded, hi⟩

/-- Settles O47, by the cases of a step. -/
theorem onlyTheEnvironmentChangesTheInputs : Obligations.OnlyTheEnvironmentChangesTheInputs :=
  fun _ _ => step_inp

/-- Settles O50: both views make the same write, whose tests are `reservedReason` and, while not Idle, that test. -/
theorem reservedBitsAreNeverWritten : Obligations.ReservedBitsAreNeverWritten := by
  intro s n v
  refine ⟨fun hbits => ?_, fun hbits => ?_⟩
  · have hv : reservedReason v ≠ none := by
      rw [Ne, reservedReason_eq_none_iff_bits]
      tauto
    refine ⟨fun i hdir hx hallow => ?_, fun w hw => ?_⟩
    · subst hx
      obtain ⟨why, hwhy⟩ := writeReg_refused_of_reserved (s := s) (n := i.reg) hv
      exact ⟨why, (exec_write hdir s).trans (msr_refused_of_writeReg hallow hwhy)⟩
    · subst hw
      exact writeReg_refused_of_reserved hv
  · have hv : reservedReason v = none := reservedReason_eq_none_iff_bits.2 hbits
    refine ⟨fun i why hdir hx h => ?_, fun w why hw h => ?_⟩
    · subst hx
      exact writeReg_refused_of_not_reserved hv (writeReg_of_msr_refused ((exec_write hdir s).symm.trans h))
    · subst hw
      exact writeReg_refused_of_not_reserved hv h

end Sys2Proof.Machine
end

section
/-! SUPPORT. Beside Laws/Decode.lean and Laws/Memory.lean: the decoder is the encoder's left inverse, and what the PE runs is the
instruction listed at its pc. -/

namespace Sys2Proof

/-- The fields of a joined word are the fields it was joined from. -/
theorem fieldsOfWord_wordOfFields (f : SysMove) : fieldsOfWord (wordOfFields f) = f := by
  cases f
  simp only [fieldsOfWord, wordOfFields, SysMove.mk.injEq]
  refine ⟨?_, ?_, ?_, ?_, ?_, ?_, ?_, ?_⟩ <;>
  · apply BitVec.eq_of_getLsbD_eq
    intro k hk
    simp only [BitVec.getLsbD_extractLsb', BitVec.getLsbD_append]
    interval_cases k <;> simp

/-- The decoder's last table gives an instruction back from its direction, its register and its operand. -/
theorem decodeTuple_of_instr (i : Instr) : decodeTuple (lOfDir i.dir) (crmOfReg i.reg) i.rt = .instr i := by
  cases i <;> rfl

/-- Decoding the word of a well-formed instruction gives it back (30_encoding.md R34 to R37). -/
theorem decodeWord_encodeWord {i : Instr} (h : i.WellFormed) : decodeWord (encodeWord i) = .instr i := by
  have hrt : (BitVec.ofNat 5 i.rt).toNat = i.rt := Nat.mod_eq_of_lt h
  simp [decodeWord, encodeWord, fieldsOfWord_wordOfFields, encodeFields, hrt, decodeTuple_of_instr]

/-- So does decoding its bytes, whatever follows them. -/
theorem decode_encode {i : Instr} (h : i.WellFormed) (rest : List Byte) :
    decode (encode i ++ rest) = .instr i rest := by
  rw [encode, decode_bytesOfWord, decodeWord_encodeWord h]

end Sys2Proof

namespace Sys2Proof.Machine

/-- A full word of the table's numbering is placed as its own bytes. -/
theorem tableBytes_toNat (w : InstrWord) : tableBytes 32 w.toNat = bytesOfWord w := by
  rw [tableBytes, Nat.mod_eq_of_lt w.isLt, BitVec.ofNat_toNat, BitVec.setWidth_eq]

/-- The address a placed word is fetched at is a multiple of 4 (log 15). -/
theorem alignedPc_mod_four (pc : Word) : (alignedPc pc).toNat % 4 = 0 := by
  have hlow : (alignedPc pc).setWidth 2 = 0 := by
    apply BitVec.eq_of_getLsbD_eq
    intro k hk
    simp only [alignedPc, BitVec.getLsbD_setWidth, BitVec.getLsbD_and]
    interval_cases k <;> simp
  simpa using congrArg BitVec.toNat hlow

/-- The PE runs the instruction whose bytes are listed at an aligned pc. -/
theorem peStep_of_listed {s : State} {bytes rest : List Byte} {i : Instr} (halign : s.pc.toNat % 4 = 0)
    (hlisted : Memory.readWordBytes s.mem s.pc.toNat = some bytes) (hdecode : decode bytes = .instr i rest) :
    s.peStep = exec i s := by
  simp only [State.peStep, fetch_of_listed halign hlisted, hdecode]

/-- With nothing scheduled the step is the PE's. -/
theorem step_of_schedule_nil {s : State} (h : s.schedule = []) : step s = s.peStep := by
  simp only [step, h]

end Sys2Proof.Machine
end

section
/-! SUPPORT. The instructions and the memory: each operation commutes with a change of the memory's contents (20_memory.md R27). -/

namespace Sys2Proof.Machine

/-- The state with other memory contents. -/
def State.withMem (s : State) (m : List Host.Cell) : State := { s with mem := m }

/-- What goes on after an access check goes on after its effect. -/
theorem andThen_byAccess (a : Access) (r : Result) (f : State → State) :
    andThen (byAccess a r) f = byAccess a (andThen r f) := by
  cases a <;> rfl

/-- What goes on after the tests of a write goes on after its effect. -/
theorem andThen_byTests (why : Option OpenReason) (r : Result) (f : State → State) :
    andThen (byTests why r) f = byTests why (andThen r f) := by
  cases why <;> rfl

theorem andThen_andThen (r : Result) (f g : State → State) :
    andThen (andThen r f) g = andThen r (fun u => g (f u)) := by
  cases r <;> rfl

variable (s : State) (m : List Host.Cell)

@[simp] theorem withMem_cfg : (s.withMem m).cfg = s.cfg := rfl
@[simp] theorem withMem_inp : (s.withMem m).inp = s.inp := rfl
@[simp] theorem withMem_readX (k : Nat) : (s.withMem m).readX k = s.readX k := rfl
@[simp] theorem withMem_access (d : Dir) : (s.withMem m).access d = s.access d := rfl

theorem advancePc_withMem : (s.withMem m).advancePc = s.advancePc.withMem m := by
  unfold State.advancePc State.withMem
  split <;> rfl

theorem mrsEffect_withMem (n : RegIndex) (k : Nat) : (s.withMem m).mrsEffect n k = (s.mrsEffect n k).withMem m := by
  simp only [State.mrsEffect, writeX_eq, ← advancePc_withMem]
  rfl

theorem writeReg_withMem (n : RegIndex) (v : Word) :
    (s.withMem m).writeReg n v = andThen (s.writeReg n v) (State.withMem · m) := by
  rw [State.writeReg, State.writeReg, withMem_inp, withMem_cfg]
  split_ifs <;>
  · rw [andThen_byTests]
    rfl

/-- With other memory contents an instruction does the same, and leaves them. -/
theorem exec_withMem (i : Instr) : exec i (s.withMem m) = andThen (exec i s) (State.withMem · m) := by
  cases hdir : i.dir with
  | read =>
    rw [exec_read hdir, exec_read hdir, mrs, mrs, andThen_byAccess, withMem_access, mrsEffect_withMem,
      andThen_of_next]
  | write =>
    rw [exec_write hdir, exec_write hdir, msr, msr, andThen_byAccess, withMem_access, withMem_readX, writeReg_withMem]
    simp only [andThen_andThen, advancePc_withMem]

end Sys2Proof.Machine
end

section
/-! SUPPORT. A read of TRCSEQEVR<n> after a write of it, by each view (20_memory.md R31, R32), and the value that governs the
Sequencer. -/

namespace Sys2Proof.Machine

variable {s : State} {n : RegIndex} {v : Word}

/-- A register whose always-reserved bits are 0 reads as its value under every `RES0_MODE` that draws none of them. -/
theorem readReg_of_reservedClear (hv : s.evr[n.val].value &&& reservedMask = 0) (hmode : s.cfg.res0Mode ≠ .any) :
    s.readReg n = s.evr[n.val].value := by
  cases h : s.cfg.res0Mode with
  | any => exact absurd h hmode
  | razWi => simp [State.readReg, h, and_fieldMask_of_reservedClear hv]
  | storage => simp [State.readReg, h]

/-- After an admitted write of a register its non-reserved bits read as the value written, which has no other bits. -/
theorem readReg_and_fieldMask_of_admittedWrite (h : openReason s.inp.idle v = none) :
    (s.admittedWrite n v).readReg n &&& fieldMask = v := by
  obtain ⟨-, hv, -⟩ := openReason_none h
  rw [readReg_and_fieldMask, State.admittedWrite, putReg_evr_same]
  exact and_fieldMask_of_reservedClear hv

/-- So do all of its bits, unless the reserved ones are drawn. -/
theorem readReg_of_admittedWrite (h : openReason s.inp.idle v = none) (hmode : s.cfg.res0Mode ≠ .any) :
    (s.admittedWrite n v).readReg n = v := by
  obtain ⟨-, hv, -⟩ := openReason_none h
  have hvalue : (s.admittedWrite n v).evr[n.val].value = v := by simp [State.admittedWrite]
  exact (readReg_of_reservedClear (s := s.admittedWrite n v) (by rwa [hvalue]) hmode).trans hvalue

/-- A completed `MSR` whose write is admitted leaves what that write leaves in the registers. -/
theorem exec_write_readReg {i : Instr} {u : State} (hdir : i.dir = .write)
    (hopen : openReason s.inp.idle (s.readX i.rt) = none) (h : exec i s = .next u) :
    u.readReg n = (s.admittedWrite i.reg (s.readX i.rt)).readReg n := by
  rw [exec_write hdir] at h
  rw [msr_admitted h hopen]
  exact readReg_congr (advancePc_cfg _) (by rw [advancePc_evr])

/-- The non-reserved bits of an external read are those of the System register view. -/
theorem extRead_and_fieldMask (s : State) (n : RegIndex) :
    s.extRead n &&& 0x9F9F#32 = (s.readReg n &&& fieldMask).setWidth 32 := by
  rw [BitVec.setWidth_and]
  rfl

/-- The value that governs an evaluation is the register's, or one that it held and that may still govern. -/
theorem governing_mem (s : State) (n : RegIndex) (k : Nat) :
    s.governing n k = s.evr[n].value ∨ s.governing n k ∈ s.evr[n].stale := by
  unfold State.governing
  split
  · exact .inl rfl
  · rename_i old older hstale
    rw [hstale, ← List.mem_cons]
    have hlt : Config.freeIndex k % (s.evr[n].value :: old :: older).length <
        (s.evr[n].value :: old :: older).length := Nat.mod_lt _ (Nat.zero_lt_succ _)
    simp only [List.getD_eq_getElem _ _ hlt]
    exact List.getElem_mem hlt

/-- With no older value that may still govern, the register's value governs. -/
theorem governing_of_settled {k : Nat} (h : s.evr[n.val].stale = []) : s.governing n k = s.evr[n.val].value := by
  simp [State.governing, h]

end Sys2Proof.Machine
end

section
/-! SUPPORT. The external view (20_memory.md R28 to R30): the window of a register, the bytes of a word, the tests of a
zero-extended word, and what an external access answers. -/

namespace Sys2Proof.Machine

variable {s : State} {n : RegIndex} {addr : Word}

/-- The register at a window that is its alone. -/
theorem extIndex_of_window {c : Config} (hwindow : addr = c.extBase + c.extOffset[n])
    (halone : ∀ m : RegIndex, c.extOffset[m] = c.extOffset[n] → m = n) : extIndex c addr = some n := by
  have hother : ∀ m : RegIndex, m ≠ n → addr ≠ c.extBase + c.extOffset[m] := fun m hm he =>
    hm (halone m (add_left_cancel (he.symm.trans hwindow)))
  match n, hwindow, hother with
  | 0, hwindow, _ => exact if_pos hwindow
  | 1, hwindow, hother => exact (if_neg (hother 0 (by decide))).trans (if_pos hwindow)
  | 2, hwindow, hother =>
    exact (if_neg (hother 0 (by decide))).trans ((if_neg (hother 1 (by decide))).trans (if_pos hwindow))

/-- An aligned access of 4 bytes at such a window reaches a present register. -/
theorem extTarget_of_window (hpresent : s.cfg.present = true) (hwindow : addr = s.cfg.extBase + s.cfg.extOffset[n])
    (halone : ∀ m : RegIndex, s.cfg.extOffset[m] = s.cfg.extOffset[n] → m = n) (halign : addr.toNat % 4 = 0) :
    s.extTarget addr 4 = .ok n := by
  simp [State.extTarget, halign, hpresent, extIndex_of_window hwindow halone]

/-- An access of another width reaches none, whatever the address. -/
theorem extTarget_of_width {size : Nat} (h : size ≠ 4) : s.extTarget addr size = .error .extWidth := if_pos h

/-- A misaligned access of 4 bytes reaches none. -/
theorem extTarget_of_misaligned (h : addr.toNat % 4 ≠ 0) : s.extTarget addr 4 = .error .extMisaligned := by
  rw [State.extTarget, if_neg (not_not.2 rfl), if_pos h]

section Free
variable (hfree : s.cfg.externalAgent = .free)
include hfree

/-- An external read that reaches a register gets its low half, in the byte order the parameter says (R28, R29). -/
theorem extReadStep_of_ok {size : Nat} (h : s.extTarget addr size = .ok n) :
    s.extReadStep addr size =
      .next { s with extData := extBytesOfWord s.cfg.extBigEndian (s.extRead n) } := by
  simp only [State.extReadStep, hfree, h]

theorem extReadStep_of_error {size : Nat} {why : Refusal} (h : s.extTarget addr size = .error why) :
    s.extReadStep addr size = .refused why := by
  simp only [State.extReadStep, hfree, h]

theorem extWriteStep_of_error {bytes : List Byte} {why : Refusal} (h : s.extTarget addr bytes.length = .error why) :
    s.extWriteStep addr bytes = .refused why := by
  simp only [State.extWriteStep, hfree, h]

/-- The write of a word's bytes, in the order the parameter says, is the write of that word (R29). -/
theorem extWriteStep_of_ok {w : InstrWord} (h : s.extTarget addr 4 = .ok n) :
    s.extWriteStep addr (extBytesOfWord s.cfg.extBigEndian w) = s.extWrite n w := by
  cases hbig : s.cfg.extBigEndian <;>
    simp [State.extWriteStep, hfree, h, extBytesOfWord, bytesOfWord, extWordOfBytes, wordOfBytes_bytes, hbig]

end Free

/-- The always-reserved bits of a zero-extended word are the word's own. -/
theorem setWidth_and_reservedMask (w : InstrWord) :
    w.setWidth 64 &&& reservedMask = (w &&& 0xFFFF6060#32).setWidth 64 :=
  calc w.setWidth 64 &&& reservedMask
    _ = (w &&& BitVec.allOnes 32).setWidth 64 &&& reservedMask := by rw [BitVec.and_allOnes]
    _ = w.setWidth 64 &&& ((BitVec.allOnes 32).setWidth 64 &&& reservedMask) := by
      rw [BitVec.setWidth_and, BitVec.and_assoc]
    _ = w.setWidth 64 &&& (0xFFFF6060#32).setWidth 64 := rfl
    _ = (w &&& 0xFFFF6060#32).setWidth 64 := BitVec.setWidth_and.symm

theorem setWidth_and_reservedMask_eq_zero {w : InstrWord} :
    w.setWidth 64 &&& reservedMask = 0#64 ↔ w &&& 0xFFFF6060#32 = 0#32 := by
  rw [setWidth_and_reservedMask]
  exact ⟨fun h => by simpa using congrArg (BitVec.setWidth 32) h, fun h => by rw [h]; rfl⟩

/-- The tests of an external write, on the word itself (R28). -/
theorem reservedReason_setWidth (w : InstrWord) :
    reservedReason (w.setWidth 64) =
      if w &&& 0xFFFF6060#32 ≠ 0 then some .res0
      else if w.getLsbD 15 = true ∧ w.getLsbD 12 = true then some .bSel4
      else if w.getLsbD 7 = true ∧ w.getLsbD 4 = true then some .fSel4
      else none := by
  simp [reservedReason, setWidth_and_reservedMask_eq_zero, bSel4Reserved, fSel4Reserved, bType, fType]

/-- A write while Idle, or where open writes run, makes the tests for reserved bits. -/
theorem writeReg_of_runs (n : RegIndex) (v : Word) (h : s.inp.idle = true ∨ s.cfg.openWrite = .run) :
    s.writeReg n v =
      byTests (reservedReason v) (.next (if s.inp.idle then s.admittedWrite n v else s.busyWrite n)) := by
  cases hidle : s.inp.idle with
  | true => simp [State.writeReg, hidle]
  | false =>
    have hrun : s.cfg.openWrite = .run := by simpa [hidle] using h
    simp [State.writeReg, hidle, hrun]

/-- A write while not Idle is refused where open writes are (log 9). -/
theorem writeReg_of_refuses (n : RegIndex) (v : Word) (hidle : s.inp.idle = false) (h : s.cfg.openWrite = .refuse) :
    s.writeReg n v = .refused (.openWrite .notIdle) := by
  simp [State.writeReg, hidle, h]

end Sys2Proof.Machine
end

section
/-! SUPPORT. The frame of a change of the inputs, beside the lemmas about `State.setInputs` above. -/

namespace Sys2Proof.Machine

variable (s : State) (i : Inputs) (n : RegIndex)

@[simp] theorem setInputs_evr_res0 : (s.setInputs i).evr[n.val].res0 = s.evr[n.val].res0 := by
  rw [setInputs_evr_get]; split <;> rfl

@[simp] theorem setInputs_readReg : (s.setInputs i).readReg n = s.readReg n := by
  simp [State.readReg]

variable {s i}

/-- To a level the implementation lacks there is no change (log 19, log 23). -/
theorem setInputs_of_not_implemented (h : i.el.implemented s.cfg = false) : s.setInputs i = s := by
  simp [State.setInputs, h]

/-- But on a departure from Idle the registers stay as they are, older values and all. -/
theorem setInputs_evr_of_not_leaving (h : ¬(s.inp.idle = true ∧ i.idle = false)) : (s.setInputs i).evr = s.evr := by
  apply Vector.ext
  intro k hk
  have hstays : ¬(i.el.implemented s.cfg && s.inp.idle && !i.idle) = true := by
    simp only [Bool.and_eq_true, Bool.not_eq_true']
    tauto
  exact (setInputs_evr_get i ⟨k, hk⟩).trans (if_neg hstays)

end Sys2Proof.Machine
end

section
/-! The statements of the memory family, settled. -/

namespace Sys2Proof.Machine

/-- Settles O8: the word placed is listed at an aligned pc, and decodes to its instruction. -/
theorem placedInstructionIsRunNext : Obligations.PlacedInstructionIsRunNext := by
  intro s i hwf
  rw [step_of_schedule_nil rfl]
  refine peStep_of_listed (alignedPc_mod_four s.pc) (bytes := encode i) (rest := []) ?_ ?_
  · simp only [State.withFetchWord, tableBytes_toNat]
    exact memory_readWordBytes_writeBytes ..
  · simpa using decode_encode hwf []

/-- Settles O19: every operation of an instruction commutes with the change of memory; that memory stays is the case of no
change. -/
theorem instructionsTouchNoMemory : Obligations.InstructionsTouchNoMemory := by
  intro i s m
  refine ⟨exec_withMem s m i, fun t h => ?_⟩
  have hsame : exec i s = andThen (exec i s) (State.withMem · s.mem) := exec_withMem s s.mem i
  rw [h, andThen_of_next] at hsame
  calc t.mem = (t.withMem s.mem).mem := congrArg State.mem (Host.Outcome.next.inj hsame)
    _ = s.mem := rfl

/-- Settles O22: the `MRS` reads what the admitted write left. -/
theorem readAfterWriteReturnsTheValue : Obligations.ReadAfterWriteReturnsTheValue := by
  intro wr rd s u t hwr hrd hreg hrt hopen hwrite hread
  have hvalue : t.readX rd.rt = (s.admittedWrite wr.reg (s.readX wr.rt)).readReg wr.reg :=
    calc t.readX rd.rt = u.readReg rd.reg := exec_read_readX hrd hrt hread
      _ = u.readReg wr.reg := by rw [hreg]
      _ = _ := exec_write_readReg hwr hopen hwrite
  rw [hvalue]
  exact ⟨readReg_and_fieldMask_of_admittedWrite hopen, readReg_of_admittedWrite hopen⟩

/-- Settles O31: a departure from Idle leaves no older value. -/
theorem writeGovernsFromTheDepartureFromIdle : Obligations.WriteGovernsFromTheDepartureFromIdle := by
  intro s n k
  refine ⟨governing_mem s n k, fun v => by simp [State.admittedWrite], fun i hidle hleaves himpl => ⟨?_, ?_⟩⟩
  · rw [setInputs_inp, if_pos himpl]
  · have hsettled : (s.setInputs i).evr[n.val] = s.evr[n.val].settle := by
      simp [setInputs_evr_get, himpl, hidle, hleaves]
    rw [governing_of_settled (by rw [hsettled]; rfl), hsettled]
    rfl

/-- Settles O32: the access reaches the register, and its word passes the tests. -/
theorem externalWriteStoresTheWord : Obligations.ExternalWriteStoresTheWord := by
  intro s n w addr hfree hpresent hwindow halone halign hidle hres0 hb hf
  have hopen : openReason s.inp.idle (w.setWidth 64) = none := by
    rw [hidle, openReason_idle, reservedReason_setWidth, if_neg (not_not.2 hres0), if_neg hb, if_neg hf]
  have htarget := extTarget_of_window hpresent hwindow halone halign
  refine ⟨s.admittedWrite n (w.setWidth 64),
    (extWriteStep_of_ok hfree htarget).trans (writeReg_admitted hopen), ?_, ?_,
    fun m hm => putReg_evr_other s n _ _ hm, rfl, rfl, rfl, rfl⟩ <;>
  simp [State.admittedWrite]

/-- Settles O33: the access reaches the register. -/
theorem externalReadReturnsTheLowHalf : Obligations.ExternalReadReturnsTheLowHalf := by
  intro s n addr hfree hpresent hwindow halone halign
  have hlow : s.extRead n = (s.readReg n).extractLsb' 0 32 := BitVec.setWidth_eq_extractLsb' (by decide)
  rw [← hlow]
  exact extReadStep_of_ok hfree (extTarget_of_window hpresent hwindow halone halign)

/-- Settles O35: the external view is the low half of the other, and both write with `State.writeReg`. -/
theorem twoViewsOneStorage : Obligations.TwoViewsOneStorage := by
  intro s n
  refine ⟨fun k hk => ?_, fun w u h hopen => ?_, fun i u hdir hreg hopen h => ?_⟩
  · simp [State.extRead, hk]
  · have hu : s.admittedWrite n (w.setWidth 64) = u := Host.Outcome.next.inj ((writeReg_admitted hopen).symm.trans h)
    rw [extRead_and_fieldMask, ← hu, readReg_and_fieldMask_of_admittedWrite hopen]
    exact ⟨rfl, by simp⟩
  · subst hreg
    rw [extRead_and_fieldMask, exec_write_readReg hdir hopen h, readReg_and_fieldMask_of_admittedWrite hopen]
    exact ⟨rfl, rfl⟩

/-- Settles O48: the frame of `State.setInputs`, whose lemmas are in Laws/State.lean and above. -/
theorem changeOfInputsFrame : Obligations.ChangeOfInputsFrame := by
  rintro s t i rfl
  refine ⟨rfl, fun h => by rw [setInputs_inp, if_pos h], setInputs_of_not_implemented, ?_, ?_, ?_, ?_, ?_,
    setInputs_evr_of_not_leaving, ?_⟩ <;>
  simp

/-- Settles O49: the access reaches the register, and the tests are those of `State.writeReg` on the zero-extended word. -/
theorem externalWriteMakesItsTests : Obligations.ExternalWriteMakesItsTests := by
  intro s n w addr r hfree hpresent hwindow halone halign hr
  have hwrite : r = s.writeReg n (w.setWidth 64) :=
    hr.trans (extWriteStep_of_ok hfree (extTarget_of_window hpresent hwindow halone halign))
  subst hwrite
  refine ⟨writeReg_of_refuses n _, fun hruns => ?_⟩
  rw [writeReg_of_runs n _ hruns, reservedReason_setWidth]
  refine ⟨fun hres0 => ?_, fun hres0 => ⟨fun hb => ?_, fun hb => ⟨fun hf => ?_, fun hf hidle => ?_⟩⟩⟩
  · rw [if_pos hres0, byTests_some]
  · rw [if_neg (not_not.2 hres0), if_pos hb, byTests_some]
  · rw [if_neg (not_not.2 hres0), if_neg hb, if_pos hf, byTests_some]
  · rw [if_neg (not_not.2 hres0), if_neg hb, if_neg hf, byTests_none, hidle]
    refine ⟨s.busyWrite n, rfl, rfl, ?_, ?_, fun m hm => putReg_evr_other s n _ _ hm, rfl, rfl, rfl⟩ <;>
    simp [State.busyWrite]

/-- Settles O7: the schedule's head is the move made, and the PE's is the instruction listed at its pc. -/
theorem stepRunsTheDecodedInstruction : Obligations.StepRunsTheDecodedInstruction := by
  refine fun s => ⟨fun bytes i rest halign hlisted hdecode => ⟨fun hs => ?_, fun later hs => ?_⟩,
    fun m later => step_of_schedule⟩
  · exact (step_of_schedule_nil hs).trans (peStep_of_listed halign hlisted hdecode)
  · exact (step_of_schedule hs).trans (peStep_of_listed (s := { s with schedule := later }) halign hlisted hdecode)

/-- Settles O34: the tests of width and alignment come before the window. -/
theorem externalAccessOfAnotherShapeIsRefused : Obligations.ExternalAccessOfAnotherShapeIsRefused := by
  intro s addr size bytes hfree
  exact ⟨fun h => extReadStep_of_error hfree (extTarget_of_width h),
    fun h => extWriteStep_of_error hfree (extTarget_of_width h),
    fun h => extReadStep_of_error hfree (extTarget_of_misaligned h),
    fun h hlen => extWriteStep_of_error hfree (by rw [hlen]; exact extTarget_of_misaligned h)⟩

end Sys2Proof.Machine
end

section
/-! SUPPORT. Beside Laws/Decode.lean and Laws/PerInstr.lean: a word that decodes has its instruction's fields, the parts of an
instruction's word, and what the PE does with a word out of scope. -/

namespace Sys2Proof

/-- What the decoder's last table answers with has the direction, the register and the operand it was asked for. -/
theorem fields_of_decodeTuple {l : BitVec 1} {crm : BitVec 4} {t : Nat} {i : Instr} (h : decodeTuple l crm t = .instr i) :
    lOfDir i.dir = l ∧ crmOfReg i.reg = crm ∧ i.rt = t := by
  have hl : l = 0#1 ∨ l = 1#1 := BitVec.eq_zero_or_eq_one l
  simp only [decodeTuple] at h
  split_ifs at h <;> cases h <;>
  exact ⟨by simp_all [lOfDir, Instr.dir], by simp_all [crmOfReg, Instr.reg], rfl⟩

/-- The fields of a word that decodes are those of its instruction, whose operand is a field of five bits. -/
theorem fieldsOfWord_of_decodeWord {w : InstrWord} {i : Instr} (h : decodeWord w = .instr i) :
    i.WellFormed ∧ fieldsOfWord w = encodeFields i := by
  simp only [decodeWord] at h
  split_ifs at h with hmove htuple
  obtain ⟨hfixed, -⟩ := hmove
  obtain ⟨hop0, hop1, hcrn, hop2⟩ := htuple
  obtain ⟨hl, hcrm, hrt⟩ := fields_of_decodeTuple h
  refine ⟨by simp only [Instr.WellFormed, hrt]; exact (fieldsOfWord w).rt.isLt, ?_⟩
  cases hf : fieldsOfWord w
  simp_all [encodeFields]

/-- A word that decodes is the word of a well-formed instruction. -/
theorem encodeWord_of_decodeWord {w : InstrWord} {i : Instr} (h : decodeWord w = .instr i) :
    i.WellFormed ∧ encodeWord i = w := by
  obtain ⟨hwf, hfields⟩ := fieldsOfWord_of_decodeWord h
  refine ⟨hwf, ?_⟩
  rw [encodeWord, ← hfields, wordOfFields_fieldsOfWord]

/-- Every direction, register and operand is an instruction's. -/
theorem exists_instr (d : Dir) (n : RegIndex) (t : Nat) : ∃ i : Instr, i.dir = d ∧ i.reg = n ∧ i.rt = t :=
  match d, n with
  | .read, 0 => ⟨.mrsTrcseqevr0 t, rfl, rfl, rfl⟩
  | .read, 1 => ⟨.mrsTrcseqevr1 t, rfl, rfl, rfl⟩
  | .read, 2 => ⟨.mrsTrcseqevr2 t, rfl, rfl, rfl⟩
  | .write, 0 => ⟨.msrTrcseqevr0 t, rfl, rfl, rfl⟩
  | .write, 1 => ⟨.msrTrcseqevr1 t, rfl, rfl, rfl⟩
  | .write, 2 => ⟨.msrTrcseqevr2 t, rfl, rfl, rfl⟩

/-- The `match` of a direction under the mask 0xFFFFFCE0 (30_encoding.md R36). -/
def dirMatch : Dir → InstrWord
  | .read => 0xD5310080#32
  | .write => 0xD5110080#32

/-- The word of an instruction is its row's `match` under the row's mask, and its bits [4:0] are the operand. -/
theorem encodeWord_tableRow {i : Instr} (h : i.WellFormed) :
    encodeWord i &&& 0xFFFFFFE0#32 = Laws.TableRow.rowMatch i ∧ ((encodeWord i).extractLsb' 0 5).toNat = i.rt := by
  cases i with
  | mrsTrcseqevr0 t => exact Laws.TableRow.mrsTrcseqevr0 t h
  | mrsTrcseqevr1 t => exact Laws.TableRow.mrsTrcseqevr1 t h
  | mrsTrcseqevr2 t => exact Laws.TableRow.mrsTrcseqevr2 t h
  | msrTrcseqevr0 t => exact Laws.TableRow.msrTrcseqevr0 t h
  | msrTrcseqevr1 t => exact Laws.TableRow.msrTrcseqevr1 t h
  | msrTrcseqevr2 t => exact Laws.TableRow.msrTrcseqevr2 t h

/-- Under the mask 0xFFFFFCE0 the word of an instruction tells its direction alone. -/
theorem encodeWord_and_mask {i : Instr} (h : i.WellFormed) : encodeWord i &&& 0xFFFFFCE0#32 = dirMatch i.dir := by
  have hmask : 0xFFFFFCE0#32 = 0xFFFFFFE0#32 &&& 0xFFFFFCE0#32 := by decide
  rw [hmask, ← BitVec.and_assoc, (encodeWord_tableRow h).1]
  cases i <;>
  · simp only [Laws.TableRow.rowMatch, dirMatch, Instr.dir]
    decide

/-- Bits [9:8] of the word of an instruction are its register's number. -/
theorem encodeWord_reg {i : Instr} (h : i.WellFormed) : (encodeWord i).extractLsb' 8 2 = BitVec.ofNat 2 i.reg.val := by
  have hmask : (0xFFFFFFE0#32).extractLsb' 8 2 = BitVec.allOnes 2 := by decide
  rw [← BitVec.and_allOnes (x := (encodeWord i).extractLsb' 8 2), ← hmask, ← BitVec.extractLsb'_and,
    (encodeWord_tableRow h).1]
  cases i <;>
  · simp only [Laws.TableRow.rowMatch, Instr.reg]
    decide

/-- The three parts that select a word's instruction lose no bit. -/
theorem word_of_parts (w : InstrWord) :
    (w &&& 0xFFFFFCE0#32) ||| (w.extractLsb' 8 2).setWidth 32 <<< 8 ||| (w.extractLsb' 0 5).setWidth 32 = w := by
  apply BitVec.eq_of_getLsbD_eq
  intro k hk
  simp only [BitVec.getLsbD_or, BitVec.getLsbD_and, BitVec.getLsbD_shiftLeft, BitVec.getLsbD_setWidth,
    BitVec.getLsbD_extractLsb']
  interval_cases k <;> simp

/-- A direction and a register select the instruction of a word whose masked part and bits [9:8] are theirs. -/
theorem decodeWord_of_parts {w : InstrWord} {d : Dir} {n : RegIndex} (hmask : w &&& 0xFFFFFCE0#32 = dirMatch d)
    (hreg : w.extractLsb' 8 2 = BitVec.ofNat 2 n.val) : ∃ i, decodeWord w = .instr i ∧ i.dir = d := by
  obtain ⟨i, rfl, rfl, hrt⟩ := exists_instr d n (w.extractLsb' 0 5).toNat
  have hwf : i.WellFormed := hrt.trans_lt (w.extractLsb' 0 5).isLt
  have hword : encodeWord i = w := by
    rw [← word_of_parts (encodeWord i), ← word_of_parts w, encodeWord_and_mask hwf, encodeWord_reg hwf, hmask, hreg,
      BitVec.eq_of_toNat_eq ((encodeWord_tableRow hwf).2.trans hrt)]
  exact ⟨i, hword ▸ decodeWord_encodeWord hwf, rfl⟩

/-- Two bits other than 0b11 number a register. -/
theorem exists_reg {b : BitVec 2} (h : b ≠ 0b11#2) : ∃ n : RegIndex, b = BitVec.ofNat 2 n.val := by
  revert b; decide

/-- No register is numbered 0b11. -/
theorem reg_ne_three (n : RegIndex) : BitVec.ofNat 2 n.val ≠ 0b11#2 := by
  revert n; decide

/-- The instructions of one direction are selected by its `match` under the mask 0xFFFFFCE0 and CRm<1:0> (30_encoding.md R36). -/
theorem decodeWord_dir_iff (w : InstrWord) (d : Dir) :
    (∃ i, decodeWord w = .instr i ∧ i.dir = d) ↔ w &&& 0xFFFFFCE0#32 = dirMatch d ∧ w.extractLsb' 8 2 ≠ 0b11#2 := by
  constructor
  · rintro ⟨i, hi, rfl⟩
    obtain ⟨hwf, rfl⟩ := encodeWord_of_decodeWord hi
    exact ⟨encodeWord_and_mask hwf, encodeWord_reg hwf ▸ reg_ne_three i.reg⟩
  · rintro ⟨hmask, hreg⟩
    obtain ⟨n, hn⟩ := exists_reg hreg
    exact decodeWord_of_parts hmask hn

/-- The mask 0xFFFFFFE0 clears the field Rt alone. -/
theorem fieldsOfWord_and_mask (w : InstrWord) :
    fieldsOfWord (w &&& 0xFFFFFFE0#32) = { fieldsOfWord w with rt := 0#5 } := by
  simp only [fieldsOfWord, BitVec.extractLsb'_and, SysMove.mk.injEq]
  refine ⟨?_, ?_, ?_, ?_, ?_, ?_, ?_, BitVec.and_zero⟩ <;> exact BitVec.and_allOnes

/-- The tuple with `CRm` = 0b0011 is rejected under its own name, whatever its Rt (92_eei_decisions.md D25). -/
theorem decodeWord_of_crm3 {w : InstrWord}
    (h : w &&& 0xFFFFFFE0#32 = 0xD5310380#32 ∨ w &&& 0xFFFFFFE0#32 = 0xD5110380#32) :
    decodeWord w = .rejected .crm3 := by
  have hfields := fieldsOfWord_and_mask w
  obtain h | h := h <;>
  · rw [h] at hfields
    obtain ⟨hfixed, -, hop0, hop1, hcrn, hcrm, hop2, -⟩ := SysMove.mk.injEq .. ▸ hfields
    simp [decodeWord, decodeTuple, ← hfixed, ← hop0, ← hop1, ← hcrn, ← hcrm, ← hop2]

/-- A word that is no instruction's is rejected. -/
theorem decodeWord_of_no_instr {w : InstrWord} (h : ∀ i : Instr, i.WellFormed → w ≠ encodeWord i) :
    ∃ why, decodeWord w = .rejected why := by
  cases hw : decodeWord w with
  | instr i =>
    obtain ⟨hwf, hword⟩ := encodeWord_of_decodeWord hw
    exact absurd hword.symm (h i hwf)
  | rejected why => exact ⟨why, rfl⟩

end Sys2Proof

namespace Sys2Proof.Machine

/-- The PE refuses a listed word that the decoder rejects, under the decoder's name for it (30_encoding.md R38). -/
theorem peStep_of_rejected {s : State} {w : InstrWord} {why : DecodeError} (halign : s.pc.toNat % 4 = 0)
    (hlisted : Memory.readWordBytes s.mem s.pc.toNat = some (bytesOfWord w)) (hw : decodeWord w = .rejected why) :
    s.peStep = .refused (.notInScope why) := by
  have hdecode : decode (bytesOfWord w) = .rejected why := by simpa [hw] using decode_bytesOfWord w []
  simp only [State.peStep, fetch_of_listed halign hlisted, hdecode]

end Sys2Proof.Machine
end

section
/-! The statements of the encoding family, settled. -/

namespace Sys2Proof.Machine

/-- Settles O1: splitting and joining, of fields and of bytes, lose no bit. -/
theorem decodeOfEncodeIsTheInstruction : Obligations.DecodeOfEncodeIsTheInstruction :=
  fun _ rest hwf => decode_encode hwf rest

/-- Settles O2: the fields the decoder tests and returns are all the fields of the word. -/
theorem decodedWordIsItsEncoding : Obligations.DecodedWordIsItsEncoding :=
  fun _ _ => encodeWord_of_decodeWord

/-- Settles O3: a word is its masked part, its bits [9:8] and its bits [4:0]. -/
theorem decoderSelectsByMaskAndMatch : Obligations.DecoderSelectsByMaskAndMatch :=
  fun w => ⟨decodeWord_dir_iff w .read, decodeWord_dir_iff w .write⟩

/-- Settles O4: the word is its instruction's, whose parts are known. -/
theorem operandsAreRtAndCrm : Obligations.OperandsAreRtAndCrm := by
  intro w i h
  obtain ⟨hwf, rfl⟩ := encodeWord_of_decodeWord h
  have hn : i.reg.val < 3 := i.reg.isLt
  refine ⟨(encodeWord_tableRow hwf).2.symm, Nat.le_of_lt_succ hwf, ?_, Nat.le_of_lt_succ hn⟩
  rw [encodeWord_reg hwf, BitVec.toNat_ofNat, Nat.mod_eq_of_lt (by omega)]

/-- Settles O6: the step is the PE's, and the decoder's answer on the word is known on each row. -/
theorem wordsInAndOutOfScope : Obligations.WordsInAndOutOfScope := by
  intro s q w hnext halign hlisted
  have hpe : step s = q.peStep ∧ q.pc = s.pc ∧ q.mem = s.mem ∧ q.cfg = s.cfg := by
    obtain ⟨hs, rfl⟩ | ⟨later, hs, rfl⟩ := hnext
    · exact ⟨step_of_schedule_nil hs, rfl, rfl, rfl⟩
    · exact ⟨step_of_schedule hs, rfl, rfl, rfl⟩
  obtain ⟨hstep, hpc, hmem, hcfg⟩ := hpe
  rw [← hpc] at halign
  rw [← hpc, ← hmem] at hlisted
  rw [hstep, ← hcfg]
  refine ⟨fun i hwf hw => ?_, fun hcrm3 => peStep_of_rejected halign hlisted (decodeWord_of_crm3 hcrm3), fun hnone => ?_⟩
  · subst hw
    have hrun : q.peStep = exec i q := peStep_of_listed halign hlisted (by simpa [encode] using decode_encode hwf [])
    exact ⟨hrun, fun habsent => hrun.trans (exec_of_absent habsent i)⟩
  · obtain ⟨why, hwhy⟩ := decodeWord_of_no_instr hnone
    exact ⟨why, peStep_of_rejected halign hlisted hwhy⟩

end Sys2Proof.Machine
end

section
/-! SUPPORT. Beside Laws/Ops.lean and Laws/Exec.lean: the word of an instruction from its parts, an instruction by the answer of
its access check (40_sysreg_access.md R41 to R43), and what it leaves. -/

namespace Sys2Proof

/-- The word of an instruction is its direction's `match` with the register's number at bit 8 and the operand in bits [4:0]. -/
theorem encodeWord_eq_of_parts {i : Instr} (h : i.WellFormed) :
    encodeWord i = dirMatch i.dir ||| BitVec.ofNat 32 (i.reg.val * 2 ^ 8) ||| BitVec.ofNat 32 i.rt := by
  have hreg : ∀ n : RegIndex, (BitVec.ofNat 2 n.val).setWidth 32 <<< 8 = BitVec.ofNat 32 (n.val * 2 ^ 8) := by decide
  have hrt : BitVec.ofNat 32 i.rt = ((encodeWord i).extractLsb' 0 5).setWidth 32 := by
    rw [← BitVec.ofNat_toNat, (encodeWord_tableRow h).2]
  rw [← hreg, hrt, ← encodeWord_and_mask h, ← encodeWord_reg h, word_of_parts]

end Sys2Proof

namespace Sys2Proof.Machine

variable {s t : State} {i : Instr} {n m : RegIndex} {v : Word}

/-- What the access check calls `Undefined` ends so (60_exceptions.md R54). -/
theorem exec_of_undefined (h : s.access i.dir = .undefined) : exec i s = .fault .undefined := by
  rw [exec_access, h, byAccess_undefined]

/-- What it traps ends in that trap (R55). -/
theorem exec_of_trap {el : EL} (h : s.access i.dir = .trap el) : exec i s = .fault (.trap el 0x18) := by
  rw [exec_access, h, byAccess_trap]

/-- An allowed `MRS` completes. -/
theorem exec_read_of_allow (hdir : i.dir = .read) (h : s.access .read = .allow) :
    exec i s = .next (s.mrsEffect i.reg i.rt) := by
  rw [exec_read hdir, mrs, h, byAccess_allow]

/-- The whole state after an `MRS` below the top of the address space. -/
theorem mrsEffect_eq (k : Nat) (h : s.pc.toNat + 4 < 2 ^ 64) :
    s.mrsEffect n k = { s with x := if h : k < 31 then s.x.set k (s.readReg n) else s.x, pc := s.pc + 4 } := by
  have hpc : (s.writeX k (s.readReg n)).pc.toNat + 4 < 2 ^ 64 := by rwa [writeX_pc]
  rw [State.mrsEffect, advancePc_eq hpc, writeX_eq]

/-- An `MRS` leaves every general register but its destination. -/
theorem mrsEffect_readX_other {j k : Nat} (h : j ≠ k) : (s.mrsEffect n k).readX j = s.readX j :=
  (readX_congr (advancePc_x _) j).trans (readX_writeX_other s h _)

/-- An allowed `MSR` while Idle, or where open writes run, makes the tests for reserved bits, then its write. -/
theorem exec_write_of_runs (hdir : i.dir = .write) (hallow : s.access .write = .allow)
    (hruns : s.inp.idle = true ∨ s.cfg.openWrite = .run) :
    exec i s = byTests (reservedReason (s.readX i.rt))
      (.next (if s.inp.idle then s.admittedWrite i.reg (s.readX i.rt) else s.busyWrite i.reg).advancePc) := by
  rw [exec_write hdir, msr, hallow, byAccess_allow, writeReg_of_runs _ _ hruns, andThen_byTests, andThen_of_next]

/-- A completed `MSR` is its completed write, with the pc moved on. -/
theorem exec_write_next (hdir : i.dir = .write) (h : exec i s = .next t) :
    ∃ u, s.writeReg i.reg (s.readX i.rt) = .next u ∧ t = u.advancePc :=
  (msr_next ((exec_write hdir s).symm.trans h)).2

/-- The tests for reserved bits in their order (10_state.md R15, R19). -/
theorem reservedReason_eq (v : Word) :
    reservedReason v =
      if v &&& 0xFFFFFFFFFFFF6060#64 ≠ 0 then some .res0
      else if v.getLsbD 15 = true ∧ v.getLsbD 12 = true then some .bSel4
      else if v.getLsbD 7 = true ∧ v.getLsbD 4 = true then some .fSel4
      else none := by
  simp [reservedReason, reservedMask, bSel4Reserved, fSel4Reserved, bType, fType]

/-- A write leaves the registers it does not name. -/
theorem writeReg_evr_other (h : s.writeReg n v = .next t) (hm : m ≠ n) : t.evr[m] = s.evr[m] := by
  obtain ⟨w, b, hevr, -⟩ := writeReg_put h
  rw [hevr]
  exact putReg_evr_other s n w b hm

/-- A write that changes the value of a register names it. -/
theorem reg_of_writeReg_changes (h : s.writeReg n v = .next t) (hne : t.evr[m].value ≠ s.evr[m].value) : n = m := by
  by_contra hnm
  exact hne (congrArg Evr.value (writeReg_evr_other h (Ne.symm hnm)))

/-- A write moves the Sequencer state only where it runs while not Idle (log 11). -/
theorem writeReg_seqState (h : s.writeReg n v = .next t) (hs : s.inp.idle = true ∨ s.cfg.openWrite = .refuse) :
    t.seqState = s.seqState := by
  rcases writeReg_next h with ⟨-, rfl⟩ | ⟨hrun, hbusy, -, -⟩
  · rfl
  · simp [hrun, hbusy] at hs

/-- The frame of a completed `MSR`: what it has in common with the state before it. -/
theorem exec_write_frame (hdir : i.dir = .write) (h : exec i s = .next t) :
    t.x = s.x ∧ t.inp = s.inp ∧ t.cfg = s.cfg ∧ t.mem = s.mem ∧ t.extData = s.extData ∧ t.schedule = s.schedule := by
  obtain ⟨u, hu, rfl⟩ := exec_write_next hdir h
  obtain ⟨-, -, -, hcfg, hinp, hx, -, hmem, hext, hsched, -⟩ := writeReg_put hu
  simp [hcfg, hinp, hx, hmem, hext, hsched]

/-- Whether a write is admitted is the same after a completed `MSR`. -/
theorem openReason_after_write (hdir : i.dir = .write) (h : exec i s = .next t) (k : Nat) :
    openReason t.inp.idle (t.readX k) = openReason s.inp.idle (s.readX k) := by
  obtain ⟨hx, hinp, -⟩ := exec_write_frame hdir h
  rw [hinp, readX_congr hx]

/-- A completed `MSR` of an admitted value programs its register (10_state.md R25). -/
theorem exec_write_programs (hdir : i.dir = .write) (hopen : openReason s.inp.idle (s.readX i.rt) = none)
    (h : exec i s = .next t) : t.evr[i.reg].programmed = true := by
  rw [msr_admitted ((exec_write hdir s).symm.trans h) hopen]
  simp [State.admittedWrite]

/-- A completed `MSR` clears no `Programmed`. -/
theorem exec_write_keeps_programmed (hdir : i.dir = .write) (h : exec i s = .next t)
    (hp : s.evr[n].programmed = true) : t.evr[n].programmed = true := by
  obtain ⟨u, hu, rfl⟩ := exec_write_next hdir h
  rw [advancePc_evr]
  exact writeReg_keeps_programmed hu hp

/-- A step that changes the value of TRCSEQEVR<n> is an allowed `MSR` of it, an external write at its window, or a reset. -/
theorem step_evr_value (h : step s = .next t) (hne : t.evr[n].value ≠ s.evr[n].value) :
    (∃ bytes i rest, s.PeRuns bytes i rest ∧ i.dir = .write ∧ i.reg = n ∧ s.access .write = .allow) ∨
    (∃ addr bytes later, s.schedule = .extWrite addr bytes :: later ∧
      s.cfg.externalAgent = .free ∧ bytes.length = 4 ∧ extIndex s.cfg addr = some n) ∨
    (∃ later, s.schedule = .traceUnitReset :: later) ∨ (∃ later, s.schedule = .otherReset :: later) := by
  cases step_effect h with
  | msr runs dir allowed written =>
    exact .inl ⟨_, _, _, runs, dir, reg_of_writeReg_changes written (by rwa [advancePc_evr] at hne), allowed⟩
  | extWrite sched free _ window written =>
    exact .inr (.inl ⟨_, _, _, sched, free, rfl, reg_of_writeReg_changes written hne ▸ window⟩)
  | traceUnitReset sched => exact .inr (.inr (.inl ⟨_, sched⟩))
  | otherReset sched => exact .inr (.inr (.inr ⟨_, sched⟩))
  | extRead | extWriteDisabled => exact absurd rfl hne
  | mrs | sequencer | seqHavoc | setInputs | setX => simp [State.mrsEffect] at hne

end Sys2Proof.Machine
end

section
/-! SUPPORT. The inputs the access check reads (40_sysreg_access.md R40). -/

namespace Sys2Proof.Machine

/-- The inputs with what the access check does not read, the trace unit's own state and selectors, put to fixed values. -/
def Inputs.controls (i : Inputs) : Inputs := { i with idle := false, paused := false, trcrsctlr := [] }

/-- The access check reads the controls alone. -/
theorem accessCheck_controls (c : Config) (i : Inputs) (d : Dir) : accessCheck c i.controls d = accessCheck c i d := rfl

/-- With every register there the inputs are read as they are. -/
theorem effective_of_present {c : Config} (i : Inputs) (h2 : c.haveEl2 = true) (h3 : c.haveEl3 = true)
    (hf : c.haveFgt = true) : i.effective c = i := by
  simp [Inputs.effective, h2, h3, hf]

/-- Other inputs that are read as the same make no difference to an access. -/
theorem access_congr_inputs {s : State} {i : Inputs} (h : i.effective s.cfg = s.inp.effective s.cfg) (d : Dir) :
    ({ s with inp := i } : State).access d = s.access d := by
  rw [State.access, State.access, h]

end Sys2Proof.Machine
end

section
/-! The statements of the System register access family, settled. -/

namespace Sys2Proof.Machine

/-- Settles O14, by the answers of the access check. -/
theorem mrsFollowsItsPseudocode : Obligations.MrsFollowsItsPseudocode := by
  intro s i hdir
  refine ⟨fun hwf => ?_, fun h => exec_of_undefined (by rwa [hdir]), fun el h => exec_of_trap (by rwa [hdir]),
    fun hallow hpc => ?_⟩
  · rw [encodeWord_eq_of_parts hwf, hdir, dirMatch]
  · rw [exec_read_of_allow hdir hallow, mrsEffect_eq _ hpc]

/-- Settles O15: the access check, then the test for Idle where it refuses, then the tests for reserved bits in their order. -/
theorem msrFollowsItsPseudocode : Obligations.MsrFollowsItsPseudocode := by
  rintro s i v hdir rfl
  refine ⟨fun hwf => ?_, fun h => exec_of_undefined (by rwa [hdir]), fun el h => exec_of_trap (by rwa [hdir]),
    fun hallow hbusy hrefuse => ?_, fun hallow hidle => ?_⟩
  · rw [encodeWord_eq_of_parts hwf, hdir, dirMatch]
  · rw [exec_write hdir]
    exact msr_refused_of_writeReg hallow (writeReg_of_refuses _ _ hbusy hrefuse)
  · rw [exec_write_of_runs hdir hallow (.inl hidle), reservedReason_eq, hidle]
    refine ⟨fun hres0 => ?_, fun hres0 => ⟨fun hb => ?_, fun hb => ⟨fun hf => ?_, fun hf hpc => ?_⟩⟩⟩
    · rw [if_pos hres0, byTests_some]
    · rw [if_neg (not_not.2 hres0), if_pos hb, byTests_some]
    · rw [if_neg (not_not.2 hres0), if_neg hb, if_pos hf, byTests_some]
    · rw [if_neg (not_not.2 hres0), if_neg hb, if_neg hf, byTests_none]
      refine ⟨_, rfl, ?_, ?_, advancePc_pc (s := s.admittedWrite i.reg (s.readX i.rt)) hpc, ?_, ?_,
        fun m hm => by rw [advancePc_evr]; exact putReg_evr_other s i.reg _ true hm⟩ <;>
      simp [State.admittedWrite]

/-- Settles O16: with `openWrite` = `run` only the tests for reserved bits come before `State.busyWrite`. -/
theorem openWritesRunWhenConfigured : Obligations.OpenWritesRunWhenConfigured := by
  intro s i hdir hallow hrun hbusy
  rw [exec_write_of_runs hdir hallow (.inr hrun), hbusy]
  refine ⟨fun why hwhy => by rw [hwhy, byTests_some], fun hnone => ?_⟩
  have hvalue : (s.busyWrite i.reg).advancePc.evr[i.reg].value =
      drawnValue s.cfg.res0Mode (Config.freeWord (s.draws + 1)) := by simp [State.busyWrite]
  refine ⟨(s.busyWrite i.reg).advancePc, by rw [hnone]; rfl, ?_, hvalue, ?_, ?_,
    fun hpc => advancePc_pc (s := s.busyWrite i.reg) hpc,
    fun htop => congrArg State.pc (advancePc_eq_of_top (s := s.busyWrite i.reg) htop)⟩
  · simp [State.busyWrite]
  · rw [hvalue]
    exact reservedClear_drawnValue s.cfg _
  · simp [State.busyWrite]

/-- Settles O20: a completed `MRS` is `State.mrsEffect`, whose frame is in Laws/State.lean. -/
theorem mrsFrame : Obligations.MrsFrame := by
  intro i s t hdir h
  obtain ⟨-, rfl⟩ := mrs_next ((exec_read hdir s).symm.trans h)
  refine ⟨fun k hk => mrsEffect_readX_other hk, readX_31 _, ?_⟩
  simp [State.mrsEffect]

/-- Settles O21: a completed `MSR` is a completed write, whose frame is `writeReg_put`. -/
theorem msrFrame : Obligations.MsrFrame := by
  intro i s t hdir h
  obtain ⟨hx, hinp, hcfg, hmem, hext, hsched⟩ := exec_write_frame hdir h
  obtain ⟨u, hu, rfl⟩ := exec_write_next hdir h
  refine ⟨hx, fun m hm => ?_, fun hs => ?_, hinp, hcfg, fun a => by rw [hmem], hext, hsched⟩
  · rw [advancePc_evr]
    exact writeReg_evr_other hu hm
  · rw [advancePc_seqState]
    exact writeReg_seqState hu hs

/-- Settles O40, by the cases of a step; with the registers absent no step changes their values. -/
theorem onlyItsWritersChangeARegister : Obligations.OnlyItsWritersChangeARegister := by
  intro s t n h hne
  refine ⟨?_, (step_evr_value h hne).imp ?_ id⟩
  · by_contra habsent
    exact hne ((step_of_absent (Bool.not_eq_true _ ▸ habsent) h).2 n).1
  · rintro ⟨bytes, i, rest, runs, hi⟩
    exact ⟨bytes, i, rest, runs.isNext, runs.fetched, runs.decoded, hi⟩

/-- Settles O44: each write is still admitted after the ones before it, and programs its register for good. -/
theorem threeWritesMeetTheLaunchPremise : Obligations.ThreeWritesMeetTheLaunchPremise := by
  intro t0 t1 t2 s u v w h0 h1 h2 e0 e1 e2 _ n
  rw [← openReason_after_write rfl e0] at h1
  rw [← openReason_after_write rfl e0, ← openReason_after_write rfl e1] at h2
  have p0 : u.evr[(0 : RegIndex)].programmed = true := exec_write_programs rfl h0 e0
  have p1 : v.evr[(1 : RegIndex)].programmed = true := exec_write_programs rfl h1 e1
  match n with
  | 0 => exact exec_write_keeps_programmed rfl e2 (exec_write_keeps_programmed rfl e1 p0)
  | 1 => exact exec_write_keeps_programmed rfl e2 p1
  | 2 => exact exec_write_programs rfl h2 e2

/-- Settles O13: the access check reads the controls alone, each through the presence of its register. -/
theorem absentControlBitsAreIgnored : Obligations.AbsentControlBitsAreIgnored := by
  intro s d b1 b2 b3 b4 b5 b6
  refine ⟨fun j hel hhalted hsdd hcpacr hcptr3 hcptr2 hel2 hfgten hread hwrite => ?_, fun h2 h3 hf => ?_,
    fun h3 => access_congr_inputs ?_ d, fun h2 => access_congr_inputs ?_ d, fun hf => access_congr_inputs ?_ d⟩
  · have hj : j.controls = (s.inp.effective s.cfg).controls := by
      simp [Inputs.controls, Inputs.effective, hel, hhalted, hsdd, hcpacr, hcptr3, hcptr2, hel2, hfgten, hread, hwrite]
    rw [State.access, ← accessCheck_controls, ← hj, accessCheck_controls]
  · rw [State.access, effective_of_present s.inp h2 h3 hf]
  · simp [Inputs.effective, h3]
  · simp [Inputs.effective, h2]
  · simp [Inputs.effective, hf]

end Sys2Proof.Machine
end

section
/-! SUPPORT. The Sequencer (41_sequencer_transitions.md R46 to R53): its events, its two candidates, the arms of a step, and what
a step reads. -/

namespace Sys2Proof.Machine

variable {s u : State} {a : Answers} {q : Fin 4} {sel : BitVec 5}

/-- The pair a selection names is its low four bits (10_state.md R14). -/
theorem pairIndex_eq (sel : BitVec 5) : pairIndex sel = sel.toNat % 16 := by simp [pairIndex]

/-- So `SEL[4]` names no other pair. -/
theorem pairIndex_xor_sel4 (sel : BitVec 5) : pairIndex (sel ^^^ 0b10000#5) = pairIndex sel := by
  rw [pairIndex, BitVec.extractLsb'_xor]
  simp [pairIndex]

/-- While the Paused state holds no event fires (R50). -/
theorem event_of_paused (hp : s.pausedNow = true) (k : Nat) (type : Bool) (sel : BitVec 5) :
    s.event a k type sel = false := if_pos hp

/-- An event of a single selector is its output, or a draw where it is not implemented. -/
theorem event_selector (hp : s.pausedNow = false) (k : Nat) :
    s.event a k false sel =
      if s.cfg.implementedSelectors.getLsbD sel.toNat then a.selectors.getLsbD sel.toNat else Config.freeBit k := by
  cases hsel : s.cfg.implementedSelectors.getLsbD sel.toNat <;>
    simp [State.event, State.unpredictableFire, hp, selectorImplemented, selectorIndex, hsel]

/-- An event of a pair is its output, or a draw where it is pair 0 or not implemented. -/
theorem event_pair (hp : s.pausedNow = false) (k : Nat) :
    s.event a k true sel =
      if sel.toNat % 16 = 0 ∨ s.cfg.implementedPairs.getLsbD (sel.toNat % 16) = false then Config.freeBit k
      else a.pairs.getLsbD (sel.toNat % 16) := by
  simp [State.event, State.unpredictableFire, hp, pairImplemented, pairIndex_eq, ite_or]

/-- An event reads the parameters and whether the Paused state holds, and nothing else of the state. -/
theorem event_congr (hcfg : u.cfg = s.cfg) (hp : u.pausedNow = s.pausedNow) : u.event = s.event := by
  funext a k type sel
  simp only [State.event, State.unpredictableFire, hcfg, hp]

/-- The forward candidate fires: there is a state above, and the forward event of TRCSEQEVR<s> fires (R47). -/
theorem forwardFires_iff :
    s.forwardFires a = true ↔ ∃ n : RegIndex, n.val = s.seqState.val ∧
      s.event a s.draws (fType (s.governing n s.draws)) (fSel (s.governing n s.draws)) = true := by
  unfold State.forwardFires
  split
  · rename_i h
    refine ⟨fun hfires => ⟨⟨s.seqState.val, h⟩, rfl, hfires⟩, fun ⟨n, hn, hfires⟩ => ?_⟩
    have hn' : n = ⟨s.seqState.val, h⟩ := Fin.ext hn
    rwa [hn'] at hfires
  · exact ⟨nofun, fun ⟨n, hn, _⟩ => by omega⟩

/-- The backward candidate fires: there is a state below, and the backward event of TRCSEQEVR<s-1> fires (R48). -/
theorem backwardFires_iff :
    s.backwardFires a = true ↔ ∃ n : RegIndex, n.val + 1 = s.seqState.val ∧
      s.event a (s.draws + 1) (bType (s.governing n (s.draws + 1))) (bSel (s.governing n (s.draws + 1))) = true := by
  unfold State.backwardFires
  split
  · rename_i h
    refine ⟨fun hfires => ⟨⟨s.seqState.val - 1, by omega⟩, Nat.sub_add_cancel h, hfires⟩, fun ⟨n, hn, hfires⟩ => ?_⟩
    have hn' : n = ⟨s.seqState.val - 1, by omega⟩ := Fin.ext (Nat.eq_sub_of_add_eq hn)
    rwa [hn'] at hfires
  · exact ⟨nofun, fun ⟨n, hn, _⟩ => by omega⟩

theorem seqState_lt_of_forwardFires (h : s.forwardFires a = true) : s.seqState.val < 3 := by
  obtain ⟨n, hn, -⟩ := forwardFires_iff.1 h
  omega

theorem seqState_pos_of_backwardFires (h : s.backwardFires a = true) : 0 < s.seqState.val := by
  obtain ⟨n, hn, -⟩ := backwardFires_iff.1 h
  omega

theorem seqUp_val (h : q.val < 3) : (seqUp q).val = q.val + 1 := by rw [seqUp, dif_pos h]

theorem seqDown_val (h : 0 < q.val) : (seqDown q).val + 1 = q.val := Nat.sub_add_cancel h

/-- A choice moves the state by at most one, so it wraps at neither end (R51). -/
theorem seqMove_near (q : Fin 4) (c : SeqChoice) : (seqMove q c).val ≤ q.val + 1 ∧ q.val ≤ (seqMove q c).val + 1 := by
  cases c with
  | stay => simp [seqMove]
  | forward =>
    by_cases h : q.val < 3
    · rw [seqMove, seqUp_val h]; omega
    · simp [seqMove, seqUp, h]
  | backward => simp only [seqMove, seqDown]; omega

/-- `Simul` (R52) between the ends of the states, parameter by parameter. -/
theorem seqMove_simul (c : Config) (k : Nat) (h3 : q.val < 3) (h0 : 0 < q.val) :
    (c.seqSimul = .any → (seqMove q (simul c k)).val + 1 = q.val ∨ (seqMove q (simul c k)).val = q.val ∨
      (seqMove q (simul c k)).val = q.val + 1) ∧
    (c.seqSimul = .stay → (seqMove q (simul c k)).val = q.val) ∧
    (c.seqSimul = .forwardWins → (seqMove q (simul c k)).val = q.val + 1) ∧
    (c.seqSimul = .backwardWins → (seqMove q (simul c k)).val + 1 = q.val) := by
  refine ⟨fun _ => ?_, fun h => ?_, fun h => ?_, fun h => ?_⟩
  · have hnear := seqMove_near q (simul c k)
    omega
  · rw [simul, h]; rfl
  · rw [simul, h]; exact seqUp_val h3
  · rw [simul, h]; exact seqDown_val h0

theorem seqNext_of_forward (hf : s.forwardFires a = true) (hb : s.backwardFires a = false) :
    s.seqNext a = seqMove s.seqState .forward := by simp [State.seqNext, hf, hb]

theorem seqNext_of_backward (hf : s.forwardFires a = false) (hb : s.backwardFires a = true) :
    s.seqNext a = seqMove s.seqState .backward := by simp [State.seqNext, hf, hb]

theorem seqNext_of_neither (hf : s.forwardFires a = false) (hb : s.backwardFires a = false) :
    s.seqNext a = seqMove s.seqState .stay := by simp [State.seqNext, hf, hb, seqMove]

theorem seqNext_of_both (hf : s.forwardFires a = true) (hb : s.backwardFires a = true) :
    s.seqNext a = seqMove s.seqState (simul s.cfg s.draws) := by simp [State.seqNext, hf, hb]

/-- Each arm makes one choice. -/
theorem exists_seqNext_eq_seqMove (s : State) (a : Answers) : ∃ c, s.seqNext a = seqMove s.seqState c := by
  cases hf : s.forwardFires a <;> cases hb : s.backwardFires a
  · exact ⟨_, seqNext_of_neither hf hb⟩
  · exact ⟨_, seqNext_of_backward hf hb⟩
  · exact ⟨_, seqNext_of_forward hf hb⟩
  · exact ⟨_, seqNext_of_both hf hb⟩

/-- The state a step leads to: the arms' where it is enabled, its own where it is not. -/
theorem sequencerStep_seqState :
    (s.sequencerStep a).seqState = if s.sequencerEnabled then s.seqNext a else s.seqState := by
  unfold State.sequencerStep
  split <;> rfl

theorem sequencerEnabled_of_moves (hp : s.cfg.present = true) (h : s.inp.idle = false ∨ s.cfg.seqIdleMoves = true) :
    s.sequencerEnabled = true := by
  simpa [State.sequencerEnabled, hp] using h

/-- Of the values that govern, a step reads the forward fields of TRCSEQEVR<s> and the backward fields of TRCSEQEVR<s-1>; of the
rest of the state the parameters, whether the unit is Idle, the events, the Sequencer state and the count of draws. -/
theorem sequencerStep_seqState_congr (hcfg : u.cfg = s.cfg) (hidle : u.inp.idle = s.inp.idle) (hevent : u.event = s.event)
    (hstate : u.seqState = s.seqState) (hdraws : u.draws = s.draws)
    (hforward : ∀ n : RegIndex, n.val = s.seqState.val →
      fType (u.governing n s.draws) = fType (s.governing n s.draws) ∧
      fSel (u.governing n s.draws) = fSel (s.governing n s.draws))
    (hbackward : ∀ n : RegIndex, n.val + 1 = s.seqState.val →
      bType (u.governing n (s.draws + 1)) = bType (s.governing n (s.draws + 1)) ∧
      bSel (u.governing n (s.draws + 1)) = bSel (s.governing n (s.draws + 1))) :
    (u.sequencerStep a).seqState = (s.sequencerStep a).seqState := by
  have hf : u.forwardFires a = s.forwardFires a := by
    rw [Bool.eq_iff_iff, forwardFires_iff, forwardFires_iff, hevent, hstate, hdraws]
    exact exists_congr fun n => and_congr_right fun hn => by rw [(hforward n hn).1, (hforward n hn).2]
  have hb : u.backwardFires a = s.backwardFires a := by
    rw [Bool.eq_iff_iff, backwardFires_iff, backwardFires_iff, hevent, hstate, hdraws]
    exact exists_congr fun n => and_congr_right fun hn => by rw [(hbackward n hn).1, (hbackward n hn).2]
  have henabled : u.sequencerEnabled = s.sequencerEnabled := by simp only [State.sequencerEnabled, hcfg, hidle]
  simp only [sequencerStep_seqState, henabled, State.seqNext, hf, hb, hcfg, hstate, hdraws]

/-- While the Paused state holds a step leaves the state. -/
theorem sequencerStep_seqState_of_paused (hp : s.pausedNow = true) : (s.sequencerStep a).seqState = s.seqState := by
  have hf : s.forwardFires a = false := by
    rw [← Bool.not_eq_true, forwardFires_iff]
    simp [event_of_paused hp]
  have hb : s.backwardFires a = false := by
    rw [← Bool.not_eq_true, backwardFires_iff]
    simp [event_of_paused hp]
  rw [sequencerStep_seqState, seqNext_of_neither hf hb]
  exact ite_self _

/-- Under `SEQ_OTHER_MOVERS` = `NONE` there is no other mover (R53, log 23). -/
theorem seqHavoc_of_none (h : s.cfg.otherMovers = .none) : s.seqHavoc = s := by
  simp [State.seqHavoc, h]

/-- Under `FREE` another mover draws the state. -/
theorem seqHavoc_of_free (h : s.cfg.otherMovers = .free) (hp : s.cfg.present = true) :
    s.seqHavoc = { s with seqState := Config.freeSeqState s.draws, draws := s.draws + 1 } := by
  simp [State.seqHavoc, h, hp]

/-- A write that moves the Sequencer state is one that runs while not Idle (log 9, log 11). -/
theorem busy_of_writeReg_moves {n : RegIndex} {v : Word} (h : s.writeReg n v = .next u) (hne : u.seqState ≠ s.seqState) :
    s.inp.idle = false ∧ s.cfg.openWrite = .run := by
  rcases writeReg_next h with ⟨-, rfl⟩ | ⟨hrun, hbusy, -, -⟩
  · exact absurd rfl hne
  · exact ⟨hbusy, hrun⟩

/-- What a step that changes the Sequencer state was. -/
theorem step_seqState (h : step s = .next u) (hne : u.seqState ≠ s.seqState) :
    (∃ a later, s.schedule = .sequencer a :: later) ∨
    (∃ later, s.schedule = .seqHavoc :: later ∧ s.cfg.otherMovers = .free) ∨
    (∃ later, s.schedule = .traceUnitReset :: later) ∨ (∃ later, s.schedule = .otherReset :: later) ∨
    (s.inp.idle = false ∧ s.cfg.openWrite = .run ∧
      ((∃ bytes i rest, s.PeRuns bytes i rest ∧ i.dir = .write ∧ s.access .write = .allow) ∨
       (∃ addr bytes later, s.schedule = .extWrite addr bytes :: later ∧
          s.cfg.externalAgent = .free ∧ bytes.length = 4 ∧ ∃ n, extIndex s.cfg addr = some n))) := by
  cases step_effect h with
  | sequencer sched => exact .inl ⟨_, _, sched⟩
  | seqHavoc sched =>
    refine .inr (.inl ⟨_, sched, ?_⟩)
    cases hmovers : s.cfg.otherMovers with
    | free => rfl
    | none => exact absurd (congrArg State.seqState (seqHavoc_of_none (s := s.popMove) hmovers)) hne
  | traceUnitReset sched => exact .inr (.inr (.inl ⟨_, sched⟩))
  | otherReset sched => exact .inr (.inr (.inr (.inl ⟨_, sched⟩)))
  | msr runs dir allowed written =>
    obtain ⟨hbusy, hrun⟩ := busy_of_writeReg_moves written (by rwa [advancePc_seqState] at hne)
    exact .inr (.inr (.inr (.inr ⟨hbusy, hrun, .inl ⟨_, _, _, runs, dir, allowed⟩⟩)))
  | extWrite sched free _ window written =>
    obtain ⟨hbusy, hrun⟩ := busy_of_writeReg_moves written hne
    exact .inr (.inr (.inr (.inr ⟨hbusy, hrun, .inr ⟨_, _, _, sched, free, rfl, _, window⟩⟩)))
  | extRead | extWriteDisabled => exact absurd rfl hne
  | mrs | setInputs | setX => simp [State.mrsEffect] at hne

end Sys2Proof.Machine
end

section
/-! The statements of the Sequencer family, settled. -/

namespace Sys2Proof.Machine

/-- Settles O46: the values are those `State.governing` chooses, and each arm is a case of `State.seqNext`. -/
theorem sequencerStepWithWritesPending : Obligations.SequencerStepWithWritesPending := by
  rintro s t a q hpresent hmoves rfl rfl
  rw [sequencerStep_seqState, if_pos (sequencerEnabled_of_moves hpresent hmoves)]
  refine ⟨fun n => s.governing n s.draws, fun n => s.governing n (s.draws + 1), s.forwardFires a, s.backwardFires a,
    fun n => governing_mem s n _, fun n => governing_mem s n _, forwardFires_iff, backwardFires_iff,
    fun hf hb => ?_, fun hf hb => ?_, fun hf hb => ?_, fun hf hb => ?_⟩
  · rw [seqNext_of_forward hf hb]
    exact seqUp_val (seqState_lt_of_forwardFires hf)
  · rw [seqNext_of_backward hf hb]
    exact seqDown_val (seqState_pos_of_backwardFires hb)
  · rw [seqNext_of_neither hf hb]
    rfl
  · rw [seqNext_of_both hf hb]
    exact seqMove_simul _ _ (seqState_lt_of_forwardFires hf) (seqState_pos_of_backwardFires hb)

/-- Settles O27: with no write pending the values that govern in O46 are those the registers hold. -/
theorem sequencerStepFollowsItsArms : Obligations.SequencerStepFollowsItsArms := by
  intro s t a q hstale hpresent ht hq
  refine ⟨fun ⟨hidle, hmoves⟩ => ?_, fun hmoves => ?_⟩
  · rw [ht, State.sequencerStep, if_neg (by simp [State.sequencerEnabled, hidle, hmoves])]
  · obtain ⟨f, b, fwd, bwd, hf, hb, hfwd, hbwd, hup, hdown, hstay, hboth⟩ :=
      sequencerStepWithWritesPending s t a q hpresent hmoves ht hq
    obtain rfl : f = fun n => s.evr[n].value := funext fun n => by
      simpa only [hstale n, List.not_mem_nil, or_false] using hf n
    obtain rfl : b = fun n => s.evr[n].value := funext fun n => by
      simpa only [hstale n, List.not_mem_nil, or_false] using hb n
    subst hq
    replace hfwd : s.ForwardCandidate a ↔ fwd = true := hfwd.symm
    replace hbwd : s.BackwardCandidate a ↔ bwd = true := hbwd.symm
    rw [hfwd, hbwd, Bool.not_eq_true, Bool.not_eq_true]
    exact ⟨hup, fun hb hf => hdown hf hb, hstay, hboth⟩

/-- Settles O28: a step reads the candidates' fields alone, and makes one choice. -/
theorem onlyCandidatesMoveTheSequencer : Obligations.OnlyCandidatesMoveTheSequencer := by
  intro s a
  refine ⟨fun u hu hforward hbackward => ?_, ?_⟩
  · generalize u.evr = e at hu
    subst hu
    exact sequencerStep_seqState_congr rfl rfl (event_congr rfl rfl) rfl rfl hforward hbackward
  · obtain ⟨c, hc⟩ := exists_seqNext_eq_seqMove s a
    rw [sequencerStep_seqState, hc]
    split
    · exact seqMove_near s.seqState c
    · exact seqMove_near s.seqState .stay

/-- Settles O29: the resources being Paused is read through `State.pausedNow` alone. -/
theorem pausedHoldsTheSequencer : Obligations.PausedHoldsTheSequencer := by
  refine fun s a => ⟨fun hholds hpaused => ?_, fun hholds p => ?_⟩
  · have hp : s.pausedNow = true := by rw [State.pausedNow, hpaused, hholds]; rfl
    exact ⟨event_of_paused hp, sequencerStep_seqState_of_paused hp⟩
  · have hevent : ({ s with inp := { s.inp with paused := p } } : State).event = s.event :=
      event_congr rfl (by simp [State.pausedNow, hholds])
    exact ⟨fun k type sel => by rw [hevent],
      sequencerStep_seqState_congr rfl rfl hevent rfl rfl (fun _ _ => ⟨rfl, rfl⟩) fun _ _ => ⟨rfl, rfl⟩⟩

/-- Settles O42, by the cases of a step; with the registers absent no step changes the state. -/
theorem onlyItsMoversChangeTheSequencerState : Obligations.OnlyItsMoversChangeTheSequencerState := by
  intro s t h hne
  refine ⟨?_, (step_seqState h hne).imp id (.imp id (.imp id (.imp id ?_)))⟩
  · by_contra habsent
    exact hne (step_of_absent (Bool.not_eq_true _ ▸ habsent) h).1
  · refine fun ⟨hbusy, hrun, hwriter⟩ => ⟨hbusy, hrun, hwriter.imp ?_ id⟩
    rintro ⟨bytes, i, rest, runs, hi⟩
    exact ⟨bytes, i, rest, runs.isNext, runs.fetched, runs.decoded, hi⟩

/-- Settles O26, by the kind of the selection. -/
theorem eventIsTheSelectedResource : Obligations.EventIsTheSelectedResource := by
  intro s a k sel hpaused
  have hp : s.pausedNow = false := by simpa [State.pausedNow] using hpaused
  refine ⟨fun h => ?_, fun h => ?_, fun h0 h => ?_, fun h => ?_, ?_⟩
  · rw [event_selector hp, if_pos h]
  · rw [event_selector hp, if_neg (Bool.not_eq_true _ ▸ h)]
  · rw [event_pair hp, if_neg (by simp [h0, h])]
  · rw [event_pair hp, if_pos h]
  · simp only [State.event, Bool.true_eq_false, if_false, pairIndex_xor_sel4]

/-- Settles O30, by whether the step is enabled. -/
theorem sequencerWritesOnlyItsState : Obligations.SequencerWritesOnlyItsState := by
  refine fun s a => ⟨?_, seqHavoc_of_none, seqHavoc_of_free⟩
  unfold State.sequencerStep
  split
  · exact ⟨_, _, rfl⟩
  · exact ⟨s.seqState, s.draws, rfl⟩

end Sys2Proof.Machine
end

section
/-! SUPPORT. The access check as a list of causes (60_exceptions.md R54 to R56), and what it reads of the debug state (R60) and
of the direction (R59). -/

namespace Sys2Proof.Machine

variable {c : Config} {i : Inputs} {d e : Dir}

@[simp] theorem firstCause_nil : firstCause [] = .allow := rfl

@[simp] theorem firstCause_cons (p : Bool × Access) (rest : List (Bool × Access)) :
    firstCause (p :: rest) = if p.1 then p.2 else firstCause rest := rfl

/-- Where no cause's outcome is to allow, an access is allowed exactly when no cause holds. -/
theorem firstCause_eq_allow_iff {causes : List (Bool × Access)} (h : ∀ p ∈ causes, p.2 ≠ .allow) :
    firstCause causes = .allow ↔ ∀ p ∈ causes, p.1 = false := by
  induction causes with
  | nil => simp
  | cons p rest ih =>
    obtain ⟨hp, hrest⟩ := List.forall_mem_cons.1 h
    cases hholds : p.1 <;> simp [hholds, hp, ih hrest]

/-- The `CPTR_EL3.TTA` arm is T4 (at EL2 T6), then U4. -/
theorem el3Arm_eq_firstCause (c : Config) (i : Inputs) :
    el3Arm c i = firstCause [(c.haveEl3 && i.cptrEl3Tta && !(i.halted && i.sdd), .trap .el3),
      (c.haveEl3 && i.cptrEl3Tta && (i.halted && i.sdd), .undefined)] := by
  cases h3 : c.haveEl3 && i.cptrEl3Tta <;> cases hd : i.halted && i.sdd <;> simp [el3Arm, h3, hd]

theorem accessCheckEl1_eq_firstCause (c : Config) (i : Inputs) (d : Dir) :
    accessCheckEl1 c i d = firstCause (causesAtEl1 c i d) := by
  rw [accessCheckEl1, el3Arm_eq_firstCause]
  cases d <;> rfl

theorem accessCheckEl2_eq_firstCause (c : Config) (i : Inputs) :
    accessCheckEl2 c i = firstCause (causesAtEl2 c i) := by
  rw [accessCheckEl2, el3Arm_eq_firstCause]
  rfl

/-- The one condition through which `Halted()` and `EDSCR.SDD` enter the access check at EL1 and EL2 (R60). -/
def debugUndefined (c : Config) (i : Inputs) : Bool := i.halted && c.haveEl3 && i.sdd && i.cptrEl3Tta

theorem debugUndefined_iff : debugUndefined c i = true ↔
    i.halted = true ∧ c.haveEl3 = true ∧ i.sdd = true ∧ i.cptrEl3Tta = true := by
  simp [debugUndefined, and_assoc]

/-- The fine-grained test of the EL1 arm (T3). -/
def fineGrainedTest (c : Config) (i : Inputs) (d : Dir) : Bool :=
  i.el2Enabled && (!c.haveEl3 || i.fgten) && fineGrainedTrap i d

/-- The traps of EL1 and EL2 that come ahead of the `CPTR_EL3.TTA` arm (T1 to T3 and T5), and `last` where none holds. -/
def trapsBefore (c : Config) (i : Inputs) (d : Dir) (last : Access) : Access :=
  match i.el with
  | .el1 =>
    if i.cpacrEl1Tta then .trap .el1
    else if i.el2Enabled && i.cptrEl2Tta then .trap .el2
    else if fineGrainedTest c i d then .trap .el2
    else last
  | .el2 => if i.cptrEl2Tta then .trap .el2 else last
  | .el0 | .el3 => last

/-- The earlier traps let every answer of the later arm through, or replace all of them by one trap to another level than EL3. -/
theorem trapsBefore_cases (c : Config) (i : Inputs) (d : Dir) :
    (∀ last, trapsBefore c i d last = last) ∨ ∃ el, el ≠ .el3 ∧ ∀ last, trapsBefore c i d last = .trap el := by
  unfold trapsBefore
  split
  · split_ifs
    · exact .inr ⟨.el1, by decide, fun _ => rfl⟩
    · exact .inr ⟨.el2, by decide, fun _ => rfl⟩
    · exact .inr ⟨.el2, by decide, fun _ => rfl⟩
    · exact .inl fun _ => rfl
  · split_ifs
    · exact .inr ⟨.el2, by decide, fun _ => rfl⟩
    · exact .inl fun _ => rfl
  all_goals exact .inl fun _ => rfl

theorem undefinedFirst_eq (c : Config) (i : Inputs) : undefinedFirst c i = (debugUndefined c i && c.sddPriority) := by
  simp only [undefinedFirst, debugUndefined, Bool.and_assoc, Bool.and_comm c.sddPriority]

theorem el3Arm_eq (c : Config) (i : Inputs) :
    el3Arm c i = if debugUndefined c i then .undefined else if c.haveEl3 && i.cptrEl3Tta then .trap .el3 else .allow := by
  cases h3 : c.haveEl3 <;> cases ht : i.cptrEl3Tta <;> simp [el3Arm, debugUndefined, h3, ht]

/-- At EL1 and EL2 an access is first U3, then the traps ahead of the `CPTR_EL3.TTA` arm, then that arm; and of the debug state
both read `debugUndefined` alone. -/
theorem accessCheck_of_el1_or_el2 (hp : c.present = true) (hel : i.el = .el1 ∨ i.el = .el2) :
    accessCheck c i d = if debugUndefined c i && c.sddPriority then .undefined else trapsBefore c i d
      (if debugUndefined c i then .undefined else if c.haveEl3 && i.cptrEl3Tta then .trap .el3 else .allow) := by
  rw [← undefinedFirst_eq, ← el3Arm_eq]
  rcases hel with hel | hel
  · simp [accessCheck, hp, hel, trapsBefore, fineGrainedTest, accessCheckEl1]
  · simp [accessCheck, hp, hel, trapsBefore, accessCheckEl2]

theorem accessCheck_of_absent (hp : c.present = false) : accessCheck c i d = .undefined := by simp [accessCheck, hp]

/-- Another debug state makes no difference to an access unless it changes `debugUndefined` at EL1 or EL2. -/
theorem accessCheck_congr_debug {halted sdd : Bool}
    (h : i.el = .el1 ∨ i.el = .el2 → debugUndefined c { i with halted := halted, sdd := sdd } = debugUndefined c i) :
    accessCheck c { i with halted := halted, sdd := sdd } d = accessCheck c i d := by
  by_cases hel : i.el = .el1 ∨ i.el = .el2
  · cases hp : c.present
    · rw [accessCheck_of_absent hp, accessCheck_of_absent hp]
    · rw [accessCheck_of_el1_or_el2 hp hel, accessCheck_of_el1_or_el2 (i := { i with halted := halted, sdd := sdd }) hp hel,
        h hel]
      rfl
  · cases hlevel : i.el with
    | el0 | el3 => simp [accessCheck, accessCheckEl3, hlevel]
    | el1 | el2 => simp [hlevel] at hel

/-- The direction of an access is read by the fine-grained test at EL1 alone. -/
theorem accessCheck_congr_dir (h : i.el = .el1 → fineGrainedTest c i d = fineGrainedTest c i e) :
    accessCheck c i d = accessCheck c i e := by
  cases hel : i.el with
  | el0 | el2 | el3 => simp [accessCheck, hel]
  | el1 =>
    have htest := h hel
    simp only [fineGrainedTest] at htest
    simp only [accessCheck, hel, accessCheckEl1, htest]

end Sys2Proof.Machine
end

section
/-! The statements of the exceptions family, settled. -/

namespace Sys2Proof.Machine

/-- Settles O9, by the Exception level. -/
theorem accessReportsTheFirstCause : Obligations.AccessReportsTheFirstCause := by
  intro c i d
  cases hp : c.present
  · exact accessCheck_of_absent hp
  · cases hel : i.el with
    | el0 => simp [accessCheck, causesAt, hp, hel]
    | el1 => simp only [accessCheck, causesAt, hp, hel, accessCheckEl1_eq_firstCause]; rfl
    | el2 => simp only [accessCheck, causesAt, hp, hel, accessCheckEl2_eq_firstCause]; rfl
    | el3 => simp [accessCheck, causesAt, hp, hel, accessCheckEl3, causesAtEl3]

/-- Settles O10: by O9 an access is allowed when no cause of its level holds, and no cause allows. -/
theorem levelsThatMayAccess : Obligations.LevelsThatMayAccess := by
  refine ⟨fun c i d hp => ?_, fun s i n => readReg_congr rfl rfl⟩
  rw [accessReportsTheFirstCause c i d, if_pos hp]
  refine ⟨fun hel => ?_, fun hel => ?_, fun hel => ?_, fun hel => ?_⟩ <;> simp only [causesAt, hel]
  · rfl
  · exact firstCause_eq_allow_iff (by simp [causesAtEl1])
  · exact firstCause_eq_allow_iff (by simp [causesAtEl2])
  · simp [causesAtEl3]

/-- Settles O11: the debug state is read through `debugUndefined` alone, which holds of no PE that is not halted; where it holds,
the outcome turns on whether a trap ahead of the `CPTR_EL3.TTA` arm holds. -/
theorem haltedMattersInOneWay : Obligations.HaltedMattersInOneWay := by
  rintro c i running d rfl
  have hrunning : debugUndefined c { i with halted := false } = false := by simp [debugUndefined]
  refine ⟨fun hnot => ?_, fun hhalted h3 hsdd htta hel => ?_, fun hel => ?_, fun b hnot => ?_⟩
  · refine (accessCheck_congr_debug (sdd := i.sdd) fun _ => ?_).symm
    rw [hrunning, Bool.eq_false_iff.2 (mt debugUndefined_iff.1 hnot)]
  · cases hp : c.present
    · simp [accessCheck_of_absent hp]
    · have hi : debugUndefined c i = true := debugUndefined_iff.2 ⟨hhalted, h3, hsdd, htta⟩
      have hcheck : accessCheck c i d = if c.sddPriority then .undefined else trapsBefore c i d .undefined := by
        simp [accessCheck_of_el1_or_el2 hp hel, hi]
      have hrun : accessCheck c { i with halted := false } d = trapsBefore c i d (.trap .el3) := by
        rw [accessCheck_of_el1_or_el2 (i := { i with halted := false }) hp hel, hrunning, h3, htta]
        rfl
      rw [hcheck, hrun]
      rcases trapsBefore_cases c i d with hlast | ⟨el, hel3, htrap⟩
      · simp [hlast]
      · simp +contextual [htrap, hel3]
  · exact (accessCheck_congr_debug (sdd := i.sdd) (by simp [hel])).symm
  · refine accessCheck_congr_debug (halted := i.halted) fun hel => ?_
    rw [Bool.eq_iff_iff, debugUndefined_iff, debugUndefined_iff]
    exact iff_of_false (fun ⟨hhalted, h3, _, htta⟩ => hnot ⟨hhalted, h3, htta, hel⟩)
      fun ⟨hhalted, h3, _, htta⟩ => hnot ⟨hhalted, h3, htta, hel⟩

/-- Settles O12: the two fine-grained tests differ, at EL1. -/
theorem onlyFineGrainedBitsTellReadFromWrite : Obligations.OnlyFineGrainedBitsTellReadFromWrite := by
  intro c i hne
  obtain ⟨hel, htest⟩ : i.el = .el1 ∧ fineGrainedTest c i .read ≠ fineGrainedTest c i .write := by
    by_contra h
    exact hne (accessCheck_congr_dir fun hel => by_contra fun htest => h ⟨hel, htest⟩)
  refine ⟨fun hbits => htest ?_, hel, ?_, fun h3 => ?_⟩
  · rw [fineGrainedTest, fineGrainedTest, fineGrainedTrap, fineGrainedTrap, hbits]
  · by_contra hel2
    exact htest (by simp [fineGrainedTest, hel2])
  · by_contra hfgten
    exact htest (by simp [fineGrainedTest, h3, hfgten])

end Sys2Proof.Machine
end

section
/-! SUPPORT. Beside the lemmas above: what a reset leaves in the registers (70_reset_and_hazards.md R64), what an admitted `MSR`
leaves, the value that governs after a departure from Idle, and the events that are defined (10_state.md R16, R17). -/

namespace Sys2Proof.Machine

variable {s : State} {n : RegIndex}

/-- A drawn value has the non-reserved bits of its draw (10_state.md R18). -/
theorem drawnValue_and_fieldMask (m : Res0Mode) (d : Word) : drawnValue m d &&& fieldMask = d &&& fieldMask := by
  cases m with
  | razWi => rw [drawnValue, BitVec.and_assoc, BitVec.and_self]
  | any | storage => rfl

/-- It is the draw itself, unless `RES0_MODE` is `RAZ_WI` (R19). -/
theorem drawnValue_of_ne_razWi {m : Res0Mode} (h : m ≠ .razWi) (d : Word) : drawnValue m d = d := by
  cases m with
  | razWi => exact absurd rfl h
  | any | storage => rfl

/-- With the registers present a Trace unit reset draws the Sequencer state. -/
theorem traceUnitReset_seqState (hp : s.cfg.present = true) :
    s.traceUnitReset.seqState = Config.freeSeqState s.draws := by
  simp [State.traceUnitReset, hp]

/-- Each register of the state after reset. -/
theorem reset_evr_get (n : RegIndex) : State.reset.evr[n] = resetEvr := Vector.getElem_replicate ..

/-- Such a register is clear under every `RES0_MODE`. -/
theorem resetEvr_clear (c : Config) : resetEvr.Clear c :=
  ⟨fun _ => rfl, fun _ h => absurd h List.not_mem_nil⟩

/-- An allowed `MSR` whose write is admitted completes, and leaves the value written in its register. -/
theorem exec_write_of_admitted {i : Instr} (hdir : i.dir = .write) (hallow : s.access .write = .allow)
    (hopen : openReason s.inp.idle (s.readX i.rt) = none) :
    ∃ t, exec i s = .next t ∧ t.evr[i.reg].value = s.readX i.rt := by
  refine ⟨(s.admittedWrite i.reg (s.readX i.rt)).advancePc, ?_, by simp [State.admittedWrite]⟩
  rw [exec_write hdir, msr, hallow, byAccess_allow, writeReg_admitted hopen, andThen_of_next]

/-- After a departure from Idle the value a register held governs every evaluation (20_memory.md R32). -/
theorem governing_of_departure {j : Inputs} (hidle : s.inp.idle = true) (hleaves : j.idle = false)
    (himpl : j.el.implemented s.cfg = true) (k : Nat) : (s.setInputs j).governing n k = s.evr[n].value := by
  obtain ⟨-, -, hdeparture⟩ := writeGovernsFromTheDepartureFromIdle s n k
  exact (hdeparture j hidle hleaves himpl).2

/-- A defined event is the output of the selector or the pair it selects: no draw decides it (10_state.md R16, R17). -/
theorem event_of_selectionDefined {type : Bool} {sel : BitVec 5} (hp : s.pausedNow = false)
    (h : selectionDefined s.cfg type sel = true) (a : Answers) (k : Nat) :
    s.event a k type sel =
      if type then a.pairs.getLsbD (pairIndex sel) else a.selectors.getLsbD (selectorIndex sel) := by
  cases type with
  | false =>
    have himpl : s.cfg.implementedSelectors.getLsbD sel.toNat = true := h
    rw [event_selector hp, if_pos himpl]
    rfl
  | true =>
    obtain ⟨hnonzero, himpl⟩ :
        sel.toNat % 16 ≠ 0 ∧ s.cfg.implementedPairs.getLsbD (sel.toNat % 16) = true := by
      simpa [selectionDefined, pairImplemented, pairIndex_eq] using h
    rw [event_pair hp, if_neg (by simp [hnonzero, himpl]), pairIndex_eq]
    rfl

end Sys2Proof.Machine
end

section
/-! The statements of the reset family, settled. -/

namespace Sys2Proof.Machine

/-- Settles O36: `traceUnitReset_evr_get` gives each register its own draw, and `State.otherReset` is the same reset. -/
theorem resetsDrawEveryField : Obligations.ResetsDrawEveryField := by
  rintro s t hpresent rfl
  refine ⟨fun n => ?_, traceUnitReset_seqState hpresent, traceUnitReset_x s, traceUnitReset_pc s, traceUnitReset_inp s,
    traceUnitReset_mem s, rfl, rfl⟩
  have hdrawn : s.traceUnitReset.evr[n] = drawnEvr s.cfg.res0Mode (s.draws + 2 * n.val) :=
    (traceUnitReset_evr_get s n).trans (if_pos hpresent)
  rw [hdrawn]
  exact ⟨rfl, drawnValue_and_fieldMask _ _, reservedClear_drawnValue s.cfg _, fun h => drawnValue_of_ne_razWi h _⟩

/-- Settles O45: the admitted write is the value that governs from the departure from Idle on, and its events are defined. -/
theorem bootReadyWriteDefinesItsEvents : Obligations.BootReadyWriteDefinesItsEvents := by
  rintro s i v hdir rfl ⟨hallow, hopen, hbackward, hforward⟩
  obtain ⟨u, hexec, hvalue⟩ := exec_write_of_admitted hdir hallow hopen
  obtain ⟨-, hinp, hcfg, -⟩ := exec_write_frame hdir hexec
  refine ⟨u, hexec, ?_⟩
  rintro j w a k k' hleaves hunpaused himpl rfl
  have hidle : u.inp.idle = true := by rw [hinp, (openReason_eq_none.1 hopen).1]
  have hcfg' : (u.setInputs j).cfg = s.cfg := by rw [setInputs_cfg, hcfg]
  rw [← hcfg] at himpl
  rw [← hcfg'] at hbackward hforward
  have hp : (u.setInputs j).pausedNow = false := by
    rw [State.pausedNow, setInputs_inp, if_pos himpl, hunpaused, Bool.false_and]
  rw [governing_of_departure hidle hleaves himpl, hvalue]
  exact ⟨event_of_selectionDefined hp hforward a k, event_of_selectionDefined hp hbackward a k⟩

/-- Settles O37: memory is empty, and each register is clear with no older value. -/
theorem resetMeetsTheInvariant : Obligations.ResetMeetsTheInvariant :=
  ⟨⟨⟨.nil, fun _ h => absurd h List.not_mem_nil⟩, rfl, fun n => reset_evr_get n ▸ resetEvr_clear resetConfig,
    fun _ _ n => congrArg Evr.stale (reset_evr_get n)⟩, fun n => congrArg Evr.programmed (reset_evr_get n)⟩

end Sys2Proof.Machine
end

section
/-! The statement about the words of 95_test_vectors.md section 2.2, settled. -/

namespace Sys2Proof

/-- A word that encodes a well-formed instruction decodes to it. -/
theorem decodeWord_of_eq_encodeWord {w : InstrWord} {i : Instr} (hwf : i.WellFormed) (hw : w = encodeWord i) :
    decodeWord w = .instr i :=
  hw ▸ decodeWord_encodeWord hwf

end Sys2Proof

namespace Sys2Proof.Machine

/-- Settles O5: six of the words encode the instruction listed, so the decoder gives it back; the last two have the tuple with
`CRm` = 0b0011. -/
theorem specWordsDecode : Obligations.SpecWordsDecode := by
  refine ⟨decodeWord_of_eq_encodeWord ?_ ?_, decodeWord_of_eq_encodeWord ?_ ?_, decodeWord_of_eq_encodeWord ?_ ?_,
    decodeWord_of_eq_encodeWord ?_ ?_, decodeWord_of_eq_encodeWord ?_ ?_, decodeWord_of_eq_encodeWord ?_ ?_,
    decodeWord_of_crm3 (.inl ?_), decodeWord_of_crm3 (.inr ?_)⟩ <;>
  decide

end Sys2Proof.Machine
end
